-- ==== Sys2Proof/Word.lean ====
section
/-! DEFINITION. The widths of the values of the block (00_scope.md R8, R9), one name each. Every value is an unsigned bit
vector; bit 0 is the least significant (R9). -/

namespace Sys2Proof

/-- `BYTE_W` = 8: one payload byte (R8). -/
abbrev Byte := BitVec 8

/-- `BLOCK_W` = 11: a DataBlock, its bit 10 the earliest payload bit (R8, R76). -/
abbrev Block := BitVec 11

/-- `CW_W` = 15: a Codeword; position p of the source is bit p-1 (R8, R10, R77). -/
abbrev Codeword := BitVec 15

/-- `PAR_W` = 4: a syndrome (R8, R15). -/
abbrev Syndrome := BitVec 4

/-- `PROB_W` = 10: a per-mille probability operand, 0 to 1023 (R8, R70). -/
abbrev Prob := BitVec 10

/-- `LEN_W` = 16: a byte length (R8, R25). -/
abbrev Len := BitVec 16

/-- `LFSR_W` = 16: the state of the random source `LFSR16` (R8, R134). -/
abbrev LfsrWord := BitVec 16

/-- `CMD_W` = 32: a command word (R8, R61). -/
abbrev CmdWord := BitVec 32

end Sys2Proof
end

