-- ==== Sys2Proof/Config.lean ====
section
/-! DEFINITION. The implementation parameters of 00_scope.md R8 that are not widths. The open ones are arguments of every
command's rule and of the step over open parameters (Machine/Open.lean): `DATA_ORDER` and `RNG` in `Params`, `LEN_W` a
width, several instances a list of states. Their defaults, which the machine behind the host's interface takes, stand here,
but for the 16 of `LEN_W`, which is the type `Len`. The spec leaves nothing `undefined` that an instruction's result could
depend on (93_implementation_defined.md), so no free value stands here. -/

namespace Sys2Proof

/-- The open parameter `DATA_ORDER`: which data position holds which block bit (R8, R121, R123). -/
inductive DataOrder where
  /-- Block bit i at the (i+1)-th smallest data position (R121). -/
  | ascending
  /-- Block bit i at the (11-i)-th smallest data position (R123). -/
  | descending
  deriving DecidableEq, Repr

/-- `DATA_ORDER` of this machine: the spec's default (R8; 92_eei_decisions.md D5; log entry 5). -/
def Config.dataOrder : DataOrder := .ascending

/-- `PROB_SCALE`: the first draw is uniform in [0, 1000) (R8, R130). -/
def Config.probScale : Nat := 1000

/-- How many places a codeword has; the second draw is in [0, 15) (R8, R130). -/
def Config.cwPlaces : Nat := 15

/-- `LFSR_RESET` (R8, R31). -/
def Config.lfsrReset : LfsrWord := 0xACE1

/-- The largest payload `UPSTART` can be given, `2^LEN_W - 1` bytes (R8, R176). -/
def Config.maxLen : Nat := 65535

/-- The open parameter `NUM_INSTANCES`, at the spec's default (R8, R52; log entry 10). -/
def Config.numInstances : Nat := 1

end Sys2Proof
end

