-- ==== Sys2Proof/Syntax.lean ====
section
/-! DEFINITION. The nine commands of `H1511-CMD` (30_encoding.md R60), one constructor per row of spec/opcode_table.json, and
the fault codes (60_exceptions.md R191). -/

namespace Sys2Proof

/-- A command with its operands, each the unsigned value of its field (R62, R70). -/
inductive Instr where
  /-- ENC blk: encode a DataBlock (R120). -/
  | enc (data11 : Block)
  /-- DEC cw: correct a received word and extract its block (R150). -/
  | dec (cw15 : Codeword)
  /-- PKPUSH byte: push a payload byte into the packer (R102). -/
  | pkpush (byte : Byte)
  /-- PKFLUSH: end the byte sequence (R104). -/
  | pkflush
  /-- UPSTART len: begin a reconstruction (R105). -/
  | upstart (imm16 : Len)
  /-- UPPUSH blk: push a block into the unpacker (R106). -/
  | uppush (data11 : Block)
  /-- INJ cw, prob: pass a codeword through the noisy channel (R132). -/
  | inj (cw15 : Codeword) (prob10 : Prob)
  /-- DROPQ prob: ask whether the message is lost (R133). -/
  | dropq (prob10 : Prob)
  /-- SEED value: load the random source (R138). -/
  | seed (imm16 : LfsrWord)
  deriving DecidableEq, Repr

/-- The opcode, `cmd[31:28]`, of a command (R60). -/
def Instr.opcode : Instr → Nat
  | .enc _ => 1
  | .dec _ => 2
  | .pkpush _ => 3
  | .pkflush => 4
  | .upstart _ => 5
  | .uppush _ => 6
  | .inj _ _ => 7
  | .dropq _ => 8
  | .seed _ => 9

/-- The named fault codes other than `NONE` (R191). -/
inductive FaultCode where
  /-- `cmd[31:28]` is 0 or is 10 to 15. -/
  | illegalOpcode
  /-- A must-be-zero bit of the format is 1. -/
  | reservedField
  /-- SEED with operand 0. -/
  | illegalOperand
  /-- The source's EncodingFailure: named, never raised (R192). -/
  | encodingFailure
  /-- The source's DecodingFailure: named, never raised (R192). -/
  | decodingFailure
  deriving DecidableEq, Repr

/-- The number of a fault in the 3-bit field `rsp.fault`; 0 is `NONE` (R191). -/
def FaultCode.code : FaultCode → BitVec 3
  | .illegalOpcode => 1
  | .reservedField => 2
  | .illegalOperand => 3
  | .encodingFailure => 4
  | .decodingFailure => 5

end Sys2Proof
end

