-- ==== Sys2Proof/WellFormed.lean ====
section
/-! DEFINITION. Which terms of `Instr` are commands. The operand types have the widths of R62, so every operand is in its
range (R74, R79) but for one: `SEED` takes any value but zero (30_encoding.md R70, R71). -/

namespace Sys2Proof

/-- The further condition of R71's table: SEED's `imm16` is not 0. -/
def Instr.wellFormed : Instr → Bool
  | .enc _ => true
  | .dec _ => true
  | .pkpush _ => true
  | .pkflush => true
  | .upstart _ => true
  | .uppush _ => true
  | .inj _ _ => true
  | .dropq _ => true
  | .seed v => v != 0

end Sys2Proof
end

