-- ==== Sys2Proof/Decode.lean ====
section
/-! DEFINITION. The decoder (30_encoding.md R72, R73), total on 32-bit words and reading no state; the opcode map of R71 as a
table; the encoder (R79). -/

namespace Sys2Proof

/-- What a word is: a command, or illegal with the code it reports (R73). -/
inductive Decoded where
  | command (i : Instr)
  | illegal (f : FaultCode)
  deriving DecidableEq, Repr

/-- `cmd[31:28]` (R61). -/
def opcodeField (w : CmdWord) : Nat := (w.extractLsb' 28 4).toNat

/-- `byte = cmd[7:0]` (R62, R64). -/
def byteField (w : CmdWord) : Byte := w.extractLsb' 0 8

/-- `data11 = cmd[10:0]` (R62, R65). -/
def blockField (w : CmdWord) : Block := w.extractLsb' 0 11

/-- `cw15 = cmd[14:0]` (R62, R66, R68). -/
def codewordField (w : CmdWord) : Codeword := w.extractLsb' 0 15

/-- `imm16 = cmd[15:0]` (R62, R67). -/
def immField (w : CmdWord) : BitVec 16 := w.extractLsb' 0 16

/-- `prob10 = cmd[25:16]` (R62, R68, R69). -/
def probField (w : CmdWord) : Prob := w.extractLsb' 16 10

/-- The command `i`, unless a bit of the format's `zeromask` is 1 (R72, R73). -/
def ifZero (w zeromask : CmdWord) (i : Instr) : Decoded :=
  if w &&& zeromask = 0 then .command i else .illegal .reservedField

/-- `decode` of R73; the tests come in the order of R72 and R196. -/
def decode (w : CmdWord) : Decoded :=
  match opcodeField w with
  | 1 => ifZero w 0x0FFFF800#32 (.enc (blockField w))
  | 2 => ifZero w 0x0FFF8000#32 (.dec (codewordField w))
  | 3 => ifZero w 0x0FFFFF00#32 (.pkpush (byteField w))
  | 4 => ifZero w 0x0FFFFFFF#32 .pkflush
  | 5 => ifZero w 0x0FFF0000#32 (.upstart (immField w))
  | 6 => ifZero w 0x0FFFF800#32 (.uppush (blockField w))
  | 7 => ifZero w 0x0C008000#32 (.inj (codewordField w) (probField w))
  | 8 => ifZero w 0x0C00FFFF#32 (.dropq (probField w))
  | 9 =>
    if w &&& 0x0FFF0000#32 ≠ 0 then .illegal .reservedField
    else if immField w = 0 then .illegal .illegalOperand
    else .command (.seed (immField w))
  | _ => .illegal .illegalOpcode

/-- One row of the opcode map (R71): a word selects the row's command when `(w & mask) == pattern`. -/
structure OpRow where
  opcode : Nat
  mask : CmdWord
  pattern : CmdWord
  deriving DecidableEq, Repr

/-- The opcode map of R71, ENC to SEED. SEED's further condition is `Instr.wellFormed`. -/
def opcodeTable : List OpRow :=
  [ ⟨1, 0xFFFFF800#32, 0x10000000#32⟩, ⟨2, 0xFFFF8000#32, 0x20000000#32⟩, ⟨3, 0xFFFFFF00#32, 0x30000000#32⟩,
    ⟨4, 0xFFFFFFFF#32, 0x40000000#32⟩, ⟨5, 0xFFFF0000#32, 0x50000000#32⟩, ⟨6, 0xFFFFF800#32, 0x60000000#32⟩,
    ⟨7, 0xFC008000#32, 0x70000000#32⟩, ⟨8, 0xFC00FFFF#32, 0x80000000#32⟩, ⟨9, 0xFFFF0000#32, 0x90000000#32⟩ ]

/-- The word of a command (the last column of R79's table). -/
def encode : Instr → CmdWord
  | .enc d => 0x10000000#32 ||| d.setWidth 32
  | .dec c => 0x20000000#32 ||| c.setWidth 32
  | .pkpush b => 0x30000000#32 ||| b.setWidth 32
  | .pkflush => 0x40000000#32
  | .upstart n => 0x50000000#32 ||| n.setWidth 32
  | .uppush d => 0x60000000#32 ||| d.setWidth 32
  | .inj c p => 0x70000000#32 ||| (p.setWidth 32 <<< 16) ||| c.setWidth 32
  | .dropq p => 0x80000000#32 ||| (p.setWidth 32 <<< 16)
  | .seed v => 0x90000000#32 ||| v.setWidth 32

/-- The instruction of a decoded word, none where it is illegal. -/
def Decoded.instr? : Decoded → Option Instr
  | .command i => some i
  | .illegal _ => none

/-- The instruction read from `nbits` bits numbered as spec/opcode_table.json numbers them. Every command is one 32-bit word
(R61), so a number of more than 32 bits is no command. -/
def decodeTableWord (nbits w : Nat) : Option Instr :=
  if w % 2 ^ nbits < 2 ^ 32 then (decode (BitVec.ofNat 32 (w % 2 ^ nbits))).instr? else none

end Sys2Proof
end

