-- ==== Sys2Proof/Machine/State.lean ====
section
/-! DEFINITION. The state of one instance (10_state.md R20), the response record (30_encoding.md R75), the two ports of
20_memory.md R41 as the model holds them, and the state after reset (R31, R210). -/

namespace Sys2Proof.Machine

/-- The seven registers, the whole architectural state of one instance (R20), for a random source whose state is `σ` (R26) and
a length register of `lenW` bits (R8, R25): two of the open parameters are these arguments. -/
structure RegistersOf (σ : Type) (lenW : Nat) where
  /-- `PK_ACC`: payload bits received and not yet emitted in a block, right-aligned (R23). -/
  pkAcc : BitVec 10
  /-- `PK_CNT`: how many bits of `PK_ACC` are valid (R23). -/
  pkCnt : BitVec 4
  /-- `UP_ACC`: block bits received and not yet emitted in a byte, right-aligned (R24). -/
  upAcc : BitVec 7
  /-- `UP_CNT`: how many bits of `UP_ACC` are valid (R24). -/
  upCnt : BitVec 3
  /-- `UP_REM`: how many bytes of the original length are still to be emitted (R25). -/
  upRem : BitVec lenW
  /-- `LFSR`: the state of the random source, 16 bits for `LFSR16` (R26). -/
  lfsr : σ
  /-- `STATUS`, one bit: the sticky field `ILL` (R27). -/
  statusIll : Bool
  deriving DecidableEq, Repr

/-- The registers of the machine: `RNG = LFSR16` and `LEN_W` = 16, the defaults of R8 (log entries 6 and 9). -/
abbrev Registers := RegistersOf LfsrWord 16

/-- The response record of one command (R75). -/
structure Response where
  /-- 0 when the command completed, otherwise the fault code (R191). -/
  fault : BitVec 3
  /-- `STATUS.ILL` after the command. -/
  illSticky : Bool
  /-- The codeword produced: ENC, INJ. -/
  cw : Codeword
  /-- The DataBlock extracted: DEC. -/
  block : Block
  /-- `error_was_corrected`: DEC. -/
  corrected : Bool
  /-- `error_was_uncorrectable`: DEC. -/
  uncorrectable : Bool
  /-- The syndrome computed: DEC. -/
  syndrome : Syndrome
  /-- Whether a block was emitted: PKPUSH, PKFLUSH. -/
  blkValid : Bool
  /-- The block emitted: PKPUSH, PKFLUSH. -/
  blk : Block
  /-- How many bytes were emitted: UPPUSH. -/
  nbytes : BitVec 2
  /-- The first byte emitted: UPPUSH. -/
  byte0 : Byte
  /-- The second byte emitted: UPPUSH. -/
  byte1 : Byte
  /-- Whether a bit was flipped: INJ. -/
  flipped : Bool
  /-- The 0-based index of the bit flipped: INJ. -/
  pos : BitVec 4
  /-- Whether the message is to be dropped: DROPQ. -/
  drop : Bool
  deriving DecidableEq, Repr

/-- Every field 0 (R12, R75: a field no rule sets is 0). -/
def Response.blank : Response :=
  { fault := 0, illSticky := false, cw := 0, block := 0, corrected := false, uncorrectable := false, syndrome := 0,
    blkValid := false, blk := 0, nbytes := 0, byte0 := 0, byte1 := 0, flipped := false, pos := 0, drop := false }

/-- What the outside presents to the block: a command word at the command port (R41), or the reset event (R210).
DESIGN CHOICE, log entry 1. -/
inductive PortEvent where
  | command (w : CmdWord)
  | reset
  deriving DecidableEq, Repr

/-- One instance with its two ports. -/
structure State where
  /-- The registers (R20). -/
  regs : Registers
  /-- What the host is going to present, the next event first. The model's own field: DESIGN CHOICE, log entry 1. -/
  port : List PortEvent
  /-- The responses returned so far, the oldest first. The model's own field: DESIGN CHOICE, log entry 2. -/
  responses : List Response
  deriving DecidableEq, Repr

/-- The reset value of every register (R31, R210), where the random source starts in `start`. -/
def RegistersOf.resetTo {σ : Type} {lenW : Nat} (start : σ) : RegistersOf σ lenW :=
  { pkAcc := 0, pkCnt := 0, upAcc := 0, upCnt := 0, upRem := 0, lfsr := start, statusIll := false }

/-- The reset value of every register of the machine (R31, R210). -/
def Registers.reset : Registers := RegistersOf.resetTo Config.lfsrReset

/-- The machine right after reset: nothing presented yet, nothing returned yet. -/
def State.reset : State :=
  { regs := Registers.reset, port := [], responses := [] }

/-- The reasons a step can stop with a fault: none. A command the block refuses is a NEXT state with `STATUS.ILL` set and
the code in the response (60_exceptions.md R193, R194), so nothing raises a constructor of this type. DEDUCED, log entry 4. -/
inductive Fault where
  deriving DecidableEq, Repr

/-- The reasons a step can be refused by the model. -/
inductive Refusal where
  /-- Raised by an arm of `exec` whose instruction has no meaning yet; safe (the model stops). No arm raises it now. -/
  | notModelled (mnemonic : String)
  deriving DecidableEq, Repr

/-- The answer of a meaning and of a step. -/
abbrev Result := Host.Outcome State Fault Refusal

end Sys2Proof.Machine
end

