-- ==== Sys2Proof/Machine/Flags.lean ====
section
/-! DEFINITION. The flags of the responses. The block has no condition codes (10_state.md R28): these are computed afresh by
each command. -/

namespace Sys2Proof.Machine

/-- `rsp.corrected`: 1 exactly when the syndrome is not 0, parity positions included (44_decoder.md R153). -/
def correctedFlag (syndrome : Syndrome) : Bool := syndrome != 0

/-- `rsp.uncorrectable`: hardwired 0 (R29, R153). -/
def uncorrectableFlag : Bool := false

/-- A per-mille event happens exactly when the draw is below the probability, unsigned (43_channel.md R131, R132, R133). -/
def eventFires (draw : Nat) (p : Prob) : Bool := decide (draw < p.toNat)

/-- How many of `k` available bytes are emitted: `min(k, UP_REM)` (41_packer.md R106). -/
def bytesEmitted {lenW : Nat} (k : Nat) (rem : BitVec lenW) : Nat := min k rem.toNat

end Sys2Proof.Machine
end

