-- ==== Sys2Proof/Machine/Ops.lean ====
section
/-! DEFINITION. The operations every command shares: returning a response with all register writes at once (00_scope.md R12;
20_memory.md R47), the fault (60_exceptions.md R193), the reset event (70_reset_and_hazards.md R210), and taking the next
event from the port. There is no return from a fault to model (R194). -/

namespace Sys2Proof.Machine

/-- A response as it leaves the block: `ill_sticky` is `STATUS.ILL` after the command (R27, R75). -/
def Response.sealed {σ : Type} {lenW : Nat} (r : Response) (g : RegistersOf σ lenW) : Response :=
  { r with illSticky := g.statusIll }

/-- The command ends: its register writes `g` take effect together and its response is returned (R12, R47, R75). -/
def State.complete (s : State) (r : Response) (g : Registers) : State :=
  { s with regs := g, responses := s.responses ++ [r.sealed g] }

/-- The state after a command whose rule gives the registers `a.1` and the response fields `a.2`. -/
def State.answer (s : State) (a : Registers × Response) : State := s.complete a.2 a.1

/-- `raise Fault(code)` (R12, R193): `STATUS.ILL` becomes 1, the response holds the code and no other field, and no other
register changes. -/
def faultRule {σ : Type} {lenW : Nat} (f : FaultCode) (g : RegistersOf σ lenW) : RegistersOf σ lenW × Response :=
  ({ g with statusIll := true }, { Response.blank with fault := f.code })

/-- The fault as a change of the state (R193). -/
def State.raiseFault (s : State) (f : FaultCode) : State := s.answer (faultRule f s.regs)

/-- The reset event: every register gets its reset value (R210). What the host has still to present, and the responses it
already has, are the host's (log entry 1). -/
def State.takeReset (s : State) : State := { s with regs := Registers.reset }

/-- The next event presented to the block, and the state with that event consumed (R51: a word is not stored). -/
def State.nextEvent (s : State) : Option PortEvent × State :=
  match s.port with
  | [] => (none, s)
  | e :: rest => (some e, { s with port := rest })

/-- The host presents one event before all others (log entry 1). -/
def State.present (s : State) (e : PortEvent) : State := { s with port := e :: s.port }

end Sys2Proof.Machine
end

