-- ==== Sys2Proof/Machine/Operands.lean ====
section
/-! DEFINITION. The bit strings the commands work on: slices (00_scope.md R9), the packer's and the unpacker's windows
(41_packer.md R102, R106), and bit strings made from a rule for each bit. -/

namespace Sys2Proof.Machine

/-- The `n` bits of `v` that end at bit `lo`: `v[lo+n-1 : lo]` (R9). -/
def slice {w : Nat} (v : BitVec w) (lo n : Nat) : BitVec n := v.extractLsb' lo n

/-- `v & ((1 << k) - 1)`: the `k` newest bits (R102, R106). -/
def lowBits {w : Nat} (v : BitVec w) (k : Nat) : BitVec w := v &&& ((1#w <<< k) - 1#w)

/-- `t = (PK_ACC << 8) | byte`, 18 bits (R102). -/
def packWindow (acc : BitVec 10) (b : Byte) : BitVec 18 := acc.setWidth 18 <<< 8 ||| b.setWidth 18

/-- `t = (UP_ACC << 11) | data11`, 18 bits (R106). -/
def unpackWindow (acc : BitVec 7) (d : Block) : BitVec 18 := acc.setWidth 18 <<< 11 ||| d.setWidth 18

/-- The `w`-bit value whose bits, the most significant first, are `f 0`, `f 1`, ... (the order of R42 and R44). -/
def bitsBE : (w : Nat) → (Nat → Bool) → BitVec w
  | 0, _ => 0#0
  | w + 1, f => BitVec.cons (f 0) (bitsBE w (fun j => f (j + 1)))

end Sys2Proof.Machine
end

