-- ==== Sys2Proof/Machine/Random.lean ====
section
/-! DEFINITION. The random source: the draw interface (43_channel.md R130), and its decided instance `LFSR16` (R134 to R136). -/

namespace Sys2Proof.Machine

/-- The draw interface over a source whose state is `σ`: each request answers a number and may change the source (R130).
The open parameter `RNG` of R8 is a value of this type. -/
structure DrawSource (σ : Type) where
  draw1000 : σ → Nat × σ
  draw15 : σ → Nat × σ

/-- The two ranges R130 asks of a source. -/
def DrawSource.InRange {σ : Type} (src : DrawSource σ) : Prop :=
  ∀ r, (src.draw1000 r).1 < Config.probScale ∧ (src.draw15 r).1 < Config.cwPlaces

/-- `LfsrStep`: `(s >> 1) | (fb << 15)` with `fb` the sum of the taps (R134). -/
def lfsrStep (s : LfsrWord) : LfsrWord :=
  let fb := s.getLsbD 0 ^^ s.getLsbD 2 ^^ s.getLsbD 3 ^^ s.getLsbD 5
  s >>> 1 ||| (BitVec.ofBool fb).setWidth 16 <<< 15

/-- `LfsrStepN(s, n)` (R134). -/
def lfsrStepN (s : LfsrWord) : Nat → LfsrWord
  | 0 => s
  | n + 1 => lfsrStepN (lfsrStep s) n

/-- One round of a draw: shift in `bits` fresh bits and take the top `bits` bits as a number (R135, R136). -/
def drawRound (bits : Nat) (s : LfsrWord) : Nat × LfsrWord :=
  let t := lfsrStepN s bits
  ((slice t (16 - bits) bits).toNat, t)

/-- Rounds until the number is below `limit`, at most `more` further ones after the first. -/
def drawUntil (bits limit : Nat) : Nat → LfsrWord → Nat × LfsrWord
  | 0, s => drawRound bits s
  | more + 1, s =>
    let r := drawRound bits s
    if r.1 < limit then r else drawUntil bits limit more r.2

/-- `Draw1000` on `LFSR16` (R135). It ends within 3 rounds from every state, so the bound cuts nothing off: DEDUCED,
log entry 7. -/
def lfsrDraw1000 (s : LfsrWord) : Nat × LfsrWord := drawUntil 10 Config.probScale 2 s

/-- `Draw15` on `LFSR16` (R136). It ends within 5 rounds from every state: DEDUCED, log entry 7. -/
def lfsrDraw15 (s : LfsrWord) : Nat × LfsrWord := drawUntil 4 Config.cwPlaces 4 s

/-- The decided instance `RNG = LFSR16` (R134 to R136; log entry 6). -/
def lfsr16 : DrawSource LfsrWord where
  draw1000 := lfsrDraw1000
  draw15 := lfsrDraw15

end Sys2Proof.Machine
end

