-- ==== Sys2Proof/Machine/Channel.lean ====
section
/-! DEFINITION. The channel error injector: the rules of INJ and DROPQ over any random source (43_channel.md R130 to R133), and
the commands INJ, DROPQ and SEED (R132, R133, R138), for any source and on the machine. -/

namespace Sys2Proof.Machine

/-- What INJ returns: the codeword, whether a bit was flipped and its 0-based index (R132). -/
structure Injected where
  cw : Codeword
  flipped : Bool
  pos : BitVec 4
  deriving DecidableEq, Repr

/-- `injectBitError(Codeword, probability_per_mille, rng)` (R132): the second draw is made only when a bit is flipped. -/
def injectBitError {σ : Type} (src : DrawSource σ) (cw : Codeword) (p : Prob) (r : σ) : Injected × σ :=
  let d := src.draw1000 r
  if eventFires d.1 p then
    let e := src.draw15 d.2
    (⟨cw ^^^ (1#15 <<< e.1), true, BitVec.ofNat 4 e.1⟩, e.2)
  else
    (⟨cw, false, 0⟩, d.2)

/-- `shouldDropMessage(probability_per_mille, rng)` (R133). -/
def shouldDropMessage {σ : Type} (src : DrawSource σ) (p : Prob) (r : σ) : Bool × σ :=
  let d := src.draw1000 r
  (eventFires d.1 p, d.2)

/-- INJ (R132). -/
def injRule {σ : Type} {lenW : Nat} (src : DrawSource σ) (cw15 : Codeword) (prob10 : Prob) (g : RegistersOf σ lenW) :
    RegistersOf σ lenW × Response :=
  let a := injectBitError src cw15 prob10 g.lfsr
  ({ g with lfsr := a.2 }, { Response.blank with cw := a.1.cw, flipped := a.1.flipped, pos := a.1.pos })

/-- DROPQ (R133). -/
def dropqRule {σ : Type} {lenW : Nat} (src : DrawSource σ) (prob10 : Prob) (g : RegistersOf σ lenW) :
    RegistersOf σ lenW × Response :=
  let a := shouldDropMessage src prob10 g.lfsr
  ({ g with lfsr := a.2 }, { Response.blank with drop := a.1 })

/-- SEED (R138), where the source takes a seed by `load`. Seed 0 is refused whatever the source; a word with seed 0 never
reaches this rule, because the decoder reports the same fault (R72). -/
def seedRule {σ : Type} {lenW : Nat} (load : LfsrWord → σ → σ) (imm16 : LfsrWord) (g : RegistersOf σ lenW) :
    RegistersOf σ lenW × Response :=
  if imm16 = 0 then faultRule .illegalOperand g
  else ({ g with lfsr := load imm16 g.lfsr }, Response.blank)

/-- How `LFSR16` takes a seed: `LFSR <- seed` (R138). -/
def lfsrLoad (seed _ : LfsrWord) : LfsrWord := seed

/-- INJ on the machine, with its source (log entry 6). -/
def execInj (cw15 : Codeword) (prob10 : Prob) (s : State) : Result := .next (s.answer (injRule lfsr16 cw15 prob10 s.regs))

/-- DROPQ on the machine, with its source (log entry 6). -/
def execDropq (prob10 : Prob) (s : State) : Result := .next (s.answer (dropqRule lfsr16 prob10 s.regs))

/-- SEED on the machine, with its source (log entry 6). -/
def execSeed (imm16 : LfsrWord) (s : State) : Result := .next (s.answer (seedRule lfsrLoad imm16 s.regs))

end Sys2Proof.Machine
end

