-- ==== Sys2Proof/Machine/Code.lean ====
section
/-! DEFINITION. The Hamming(15,11) code as functions of values: placement and parity (42_encoder.md R120 to R123), syndrome,
correction and extraction (44_decoder.md R150 to R152). `DATA_ORDER` is an argument (R123). -/

namespace Sys2Proof.Machine

/-- The block as it is laid on the data positions in ascending order: itself, or with its bits reversed when
`DATA_ORDER = descending` (R121, R123). -/
def orderBlock : DataOrder → Block → Block
  | .ascending, d => d
  | .descending, d => d.reverse

/-- The data bits at the positions 3, 5, 6, 7, 9 to 15 and 0 at the parity positions:
`cw[14:8] = d[10:4]`, `cw[6:4] = d[3:1]`, `cw[2] = d[0]` (R121). -/
def placeData (d : Block) : Codeword :=
  (slice d 4 7).setWidth 15 <<< 8 ||| (slice d 1 3).setWidth 15 <<< 4 ||| (slice d 0 1).setWidth 15 <<< 2

/-- The positions p in 1 to 15 whose number has bit `k` set (R122, R151). -/
def positionsWith (k : Nat) : List Nat := (List.range 16).filter (fun p => p.testBit k)

/-- The bit at position p, which is bit p-1 of the value (R10). -/
def atPos (cw : Codeword) (p : Nat) : Bool := cw.getLsbD (p - 1)

/-- `XOR{ cw[p-1] : p in ps }` (R11). -/
def xorAt (cw : Codeword) (ps : List Nat) : Bool := ps.foldl (fun b p => b ^^ atPos cw p) false

/-- The parity of the bits that the parity bit at position `2^k` covers: every p with bit k set but `2^k` itself (R120, R122). -/
def parityOf (cw : Codeword) (k : Nat) : Bool := xorAt cw ((positionsWith k).filter (fun p => p ≠ 2 ^ k))

/-- The codeword with only the parity bit at position `2^k` set, when that parity is 1. -/
def parityBit (cw : Codeword) (k : Nat) : Codeword := if parityOf cw k then 1#15 <<< (2 ^ k - 1) else 0

/-- `encode(DataBlock) -> Codeword` (R120, R121, R122). -/
def hammingEncode (o : DataOrder) (d : Block) : Codeword :=
  let cw := placeData (orderBlock o d)
  cw ||| parityBit cw 0 ||| parityBit cw 1 ||| parityBit cw 2 ||| parityBit cw 3

/-- `Syndrome(cw)`: bit k is the exclusive-OR of the bits at all 8 positions whose number has bit k set (R151). -/
def hammingSyndrome (cw : Codeword) : Syndrome := bitsBE 4 (fun j => xorAt cw (positionsWith (3 - j)))

/-- `cw ^ (1 << (p - 1))`: the bit at position p flipped (R10, R150). -/
def flipPos (cw : Codeword) (p : Nat) : Codeword := cw ^^^ (1#15 <<< (p - 1))

/-- `cw'` of R150: the bit the syndrome names flipped, or the word as it is when the syndrome is 0. -/
def hammingCorrect (cw : Codeword) : Codeword :=
  let s := hammingSyndrome cw
  if s ≠ 0 then flipPos cw s.toNat else cw

/-- `Extract(cw)`: the data positions read off in their order, `block[10:4] = cw[14:8]`, `block[3:1] = cw[6:4]`,
`block[0] = cw[2]` (R152), and for `descending` in the order of R123. -/
def hammingExtract (o : DataOrder) (cw : Codeword) : Block :=
  orderBlock o
    ((slice cw 8 7).setWidth 11 <<< 4 ||| (slice cw 4 3).setWidth 11 <<< 1 ||| (slice cw 2 1).setWidth 11)

/-- `correctAndExtract`, its DataBlock (R150). -/
def hammingDecode (o : DataOrder) (cw : Codeword) : Block := hammingExtract o (hammingCorrect cw)

end Sys2Proof.Machine
end

