-- ==== Sys2Proof/Machine/Codec.lean ====
section
/-! DEFINITION. The encoder and the decoder as commands: ENC (42_encoder.md R120) and DEC (44_decoder.md R150), for either value
of `DATA_ORDER` (R123). They read no register and write none. -/

namespace Sys2Proof.Machine

variable {σ : Type} {lenW : Nat}

/-- ENC (R120). -/
def encRule (o : DataOrder) (data11 : Block) (g : RegistersOf σ lenW) : RegistersOf σ lenW × Response :=
  (g, { Response.blank with cw := hammingEncode o data11 })

/-- DEC (R150, R153). -/
def decRule (o : DataOrder) (cw15 : Codeword) (g : RegistersOf σ lenW) : RegistersOf σ lenW × Response :=
  (g,
    { Response.blank with
      block := hammingDecode o cw15
      corrected := correctedFlag (hammingSyndrome cw15)
      uncorrectable := uncorrectableFlag
      syndrome := hammingSyndrome cw15 })

/-- ENC on the machine, in its data order (log entry 5). -/
def execEnc (data11 : Block) (s : State) : Result := .next (s.answer (encRule Config.dataOrder data11 s.regs))

/-- DEC on the machine, in its data order (log entry 5). -/
def execDec (cw15 : Codeword) (s : State) : Result := .next (s.answer (decRule Config.dataOrder cw15 s.regs))

end Sys2Proof.Machine
end

