-- ==== Sys2Proof/Machine/Packer.lean ====
section
/-! DEFINITION. The bit-stream packer and unpacker: PKPUSH, PKFLUSH, UPSTART, UPPUSH (41_packer.md R102 to R106). Each rule is a
function of the registers, for any random source and any `LEN_W` (R8, R30), and the command answers by it. In states no
run reaches (a count above its range) the pseudocode is followed with natural-number arithmetic (log entry 8). -/

namespace Sys2Proof.Machine

variable {σ : Type} {lenW : Nat}

/-- PKPUSH (R102). -/
def pkpushRule (byte : Byte) (g : RegistersOf σ lenW) : RegistersOf σ lenW × Response :=
  let t := packWindow g.pkAcc byte
  let c := g.pkCnt.toNat + 8
  if 11 ≤ c then
    ({ g with pkCnt := BitVec.ofNat 4 (c - 11), pkAcc := (lowBits t (c - 11)).setWidth 10 },
      { Response.blank with blkValid := true, blk := slice t (c - 11) 11 })
  else
    ({ g with pkCnt := BitVec.ofNat 4 c, pkAcc := slice t 0 10 }, Response.blank)

/-- PKFLUSH (R104). -/
def pkflushRule (g : RegistersOf σ lenW) : RegistersOf σ lenW × Response :=
  let empty := { g with pkAcc := 0, pkCnt := 0 }
  if 0 < g.pkCnt.toNat then
    (empty, { Response.blank with blkValid := true, blk := g.pkAcc.setWidth 11 <<< (11 - g.pkCnt.toNat) })
  else
    (empty, Response.blank)

/-- UPSTART (R105). -/
def upstartRule (len : BitVec lenW) (g : RegistersOf σ lenW) : RegistersOf σ lenW × Response :=
  ({ g with upAcc := 0, upCnt := 0, upRem := len }, Response.blank)

/-- UPPUSH (R106). -/
def uppushRule (data11 : Block) (g : RegistersOf σ lenW) : RegistersOf σ lenW × Response :=
  let t := unpackWindow g.upAcc data11
  let c := g.upCnt.toNat + 11
  let k := c / 8
  let b0 := slice t (c - 8) 8
  let b1 := if k = 2 then slice t (c - 16) 8 else 0
  let m := bytesEmitted k g.upRem
  ({ g with
      upRem := g.upRem - BitVec.ofNat lenW m
      upCnt := BitVec.ofNat 3 (c - 8 * k)
      upAcc := (lowBits t (c - 8 * k)).setWidth 7 },
    { Response.blank with
      nbytes := BitVec.ofNat 2 m
      byte0 := if 1 ≤ m then b0 else 0
      byte1 := if m = 2 then b1 else 0 })

/-- PKPUSH on the machine. -/
def execPkpush (byte : Byte) (s : State) : Result := .next (s.answer (pkpushRule byte s.regs))

/-- PKFLUSH on the machine. -/
def execPkflush (s : State) : Result := .next (s.answer (pkflushRule s.regs))

/-- UPSTART on the machine. -/
def execUpstart (len : Len) (s : State) : Result := .next (s.answer (upstartRule len s.regs))

/-- UPPUSH on the machine. -/
def execUppush (data11 : Block) (s : State) : Result := .next (s.answer (uppushRule data11 s.regs))

end Sys2Proof.Machine
end

