-- ==== Sys2Proof/Machine/Dispatch.lean ====
section
/-! DEFINITION. One arm per command of 30_encoding.md R60, each a direct call of its meaning. -/

namespace Sys2Proof.Machine

def exec (i : Instr) (s : State) : Host.Outcome State Fault Refusal :=
  match i with
  | .enc data11 => Sys2Proof.Machine.execEnc data11 s
  | .dec cw15 => Sys2Proof.Machine.execDec cw15 s
  | .pkpush byte => Sys2Proof.Machine.execPkpush byte s
  | .pkflush => Sys2Proof.Machine.execPkflush s
  | .upstart imm16 => Sys2Proof.Machine.execUpstart imm16 s
  | .uppush data11 => Sys2Proof.Machine.execUppush data11 s
  | .inj cw15 prob10 => Sys2Proof.Machine.execInj cw15 prob10 s
  | .dropq prob10 => Sys2Proof.Machine.execDropq prob10 s
  | .seed imm16 => Sys2Proof.Machine.execSeed imm16 s

end Sys2Proof.Machine
end

