-- ==== Sys2Proof/Machine/Step.lean ====
section
/-! DEFINITION. One step: the next event the host presents is taken whole (20_memory.md R47). A command word is decoded and
executed, or faults (30_encoding.md R72; 60_exceptions.md R193); a reset event resets (R210); with nothing presented the
block is idle (R200; log entry 3). -/

namespace Sys2Proof.Machine

/-- One step of the block. -/
def step (s : State) : Host.Outcome State Fault Refusal :=
  match s.nextEvent with
  | (none, s') => .next s'
  | (some .reset, s') => .next s'.takeReset
  | (some (.command w), s') =>
    match decode w with
    | .command i => exec i s'
    | .illegal f => .next (s'.raiseFault f)

/-- `s` with the word presented as the very next event, so that the next step runs it (R22, R41; log entry 1). -/
def State.withFetchWord (s : State) (nbits w : Nat) : State :=
  s.present (.command (BitVec.ofNat 32 (w % 2 ^ nbits)))

end Sys2Proof.Machine
end

