-- ==== Sys2Proof/Machine/Assembler.lean ====
section
/-! DEFINITION. The assembler syntax and the two pseudo-commands (30_encoding.md R79, R80; log entry 12): from text, as a list of
characters, to command words. -/

namespace Sys2Proof.Machine

/-- The nine mnemonics and the two pseudo-commands (R79, R80). -/
inductive Mnemonic where
  | enc | dec | pkpush | pkflush | upstart | uppush | inj | dropq | seed | pkmsg | upmsg
  deriving DecidableEq, Repr

/-- A written operand: a number, or a double-quoted ASCII string standing for its bytes (R79, R80). -/
inductive AsmOperand where
  | number (n : Nat)
  | text (bytes : List Byte)
  deriving DecidableEq, Repr

/-- A number as an operand of `w` bits; outside its range it is an assembly error (R79). -/
def fitOperand (w n : Nat) : Option (BitVec w) := if n < 2 ^ w then some (BitVec.ofNat w n) else none

/-- Every element, when there is no `none` among them. -/
def allSome {α : Type} : List (Option α) → Option (List α)
  | [] => some []
  | none :: _ => none
  | some a :: rest => (allSome rest).map (fun as => a :: as)

/-- The bytes an operand of PKMSG stands for (R80). -/
def operandBytes : AsmOperand → Option (List Byte)
  | .number n => (fitOperand 8 n).map (fun b => [b])
  | .text bytes => some bytes

/-- The block an operand of UPMSG stands for (R80). -/
def operandBlock : AsmOperand → Option Block
  | .number n => fitOperand 11 n
  | .text _ => none

/-- The words of one command or pseudo-command; `none` is an assembly error (R79, R80). R80 says of PKMSG alone that its list
may be empty; that UPMSG may be written with a length and no block, and is then UPSTART alone, is the model's: DESIGN CHOICE,
log entry 12. -/
def assembleCommand : Mnemonic → List AsmOperand → Option (List CmdWord)
  | .enc, [.number d] => (fitOperand 11 d).map (fun d => [encode (.enc d)])
  | .dec, [.number c] => (fitOperand 15 c).map (fun c => [encode (.dec c)])
  | .pkpush, [.number b] => (fitOperand 8 b).map (fun b => [encode (.pkpush b)])
  | .pkflush, [] => some [encode .pkflush]
  | .upstart, [.number n] => (fitOperand 16 n).map (fun n => [encode (.upstart n)])
  | .uppush, [.number d] => (fitOperand 11 d).map (fun d => [encode (.uppush d)])
  | .inj, [.number c, .number p] =>
    (fitOperand 15 c).bind (fun c => (fitOperand 10 p).map (fun p => [encode (.inj c p)]))
  | .dropq, [.number p] => (fitOperand 10 p).map (fun p => [encode (.dropq p)])
  | .seed, [.number v] => if v = 0 then none else (fitOperand 16 v).map (fun v => [encode (.seed v)])
  | .pkmsg, ops =>
    (allSome (ops.map operandBytes)).map
      (fun bs => bs.flatten.map (fun b => encode (.pkpush b)) ++ [encode .pkflush])
  | .upmsg, .number n :: blks =>
    (fitOperand 16 n).bind (fun n =>
      (allSome (blks.map operandBlock)).map (fun K => encode (.upstart n) :: K.map (fun d => encode (.uppush d))))
  | _, _ => none

/-- The mnemonics as they are written, in capitals (R79). -/
def mnemonicNames : List (List Char × Mnemonic) :=
  [ (['E', 'N', 'C'], .enc), (['D', 'E', 'C'], .dec), (['P', 'K', 'P', 'U', 'S', 'H'], .pkpush),
    (['P', 'K', 'F', 'L', 'U', 'S', 'H'], .pkflush), (['U', 'P', 'S', 'T', 'A', 'R', 'T'], .upstart),
    (['U', 'P', 'P', 'U', 'S', 'H'], .uppush), (['I', 'N', 'J'], .inj), (['D', 'R', 'O', 'P', 'Q'], .dropq),
    (['S', 'E', 'E', 'D'], .seed), (['P', 'K', 'M', 'S', 'G'], .pkmsg), (['U', 'P', 'M', 'S', 'G'], .upmsg) ]

/-- The double quote. -/
def quoteChar : Char := Char.ofNat 34

/-- Space and tab stand between the parts of a line: DESIGN CHOICE, log entry 12. -/
def isBlank (c : Char) : Bool := c == ' ' || c == '\t'

/-- A text without the blanks at its two ends. -/
def trimBlanks (cs : List Char) : List Char := ((cs.dropWhile isBlank).reverse.dropWhile isBlank).reverse

/-- The parts of a text between the separators `sep` that stand outside a quoted string; `quoted` says whether the text
begins inside one. -/
def splitOutside (sep : Char) : Bool → List Char → List (List Char)
  | _, [] => [[]]
  | quoted, c :: cs =>
    if c = sep ∧ quoted = false then [] :: splitOutside sep quoted cs
    else
      match splitOutside sep (if c = quoteChar then !quoted else quoted) cs with
      | [] => [[c]]
      | p :: ps => (c :: p) :: ps

/-- The lines of a text: one command per line (R79). R79 does not say what ends a line; that it is the line feed alone, even
inside a quoted string, and that a carriage return is no line end and no blank, is the model's: DESIGN CHOICE, log entry 12. -/
def splitLines : List Char → List (List Char)
  | [] => [[]]
  | c :: cs =>
    if c = '\n' then [] :: splitLines cs
    else
      match splitLines cs with
      | [] => [[c]]
      | p :: ps => (c :: p) :: ps

/-- The value of a digit in base 10 or 16. -/
def digitValue (base : Nat) (c : Char) : Option Nat :=
  let n := c.toNat
  let v :=
    if 48 ≤ n ∧ n ≤ 57 then n - 48
    else if 65 ≤ n ∧ n ≤ 70 then n - 55
    else if 97 ≤ n ∧ n ≤ 102 then n - 87
    else base
  if v < base then some v else none

/-- A number written in a base, at least one digit long. -/
def digitsValue (base : Nat) (cs : List Char) : Option Nat :=
  if cs = [] then none
  else (allSome (cs.map (digitValue base))).map (fun ds => ds.foldl (fun n d => base * n + d) 0)

/-- A number: hexadecimal with the prefix `0x`, otherwise decimal (R79). -/
def parseNumber : List Char → Option Nat
  | '0' :: 'x' :: ds => digitsValue 16 ds
  | ds => digitsValue 10 ds

/-- The characters of a string operand as bytes, up to its closing quote; only ASCII is accepted (R80). There is no escape
character, and a string may be empty: DESIGN CHOICE, log entry 12. -/
def stringBytes : List Char → Option (List Byte)
  | [] => none
  | c :: cs =>
    if c = quoteChar then (if cs = [] then some [] else none)
    else if c.toNat < 128 then (stringBytes cs).map (fun bs => BitVec.ofNat 8 c.toNat :: bs)
    else none

/-- One written operand. -/
def parseOperand (cs : List Char) : Option AsmOperand :=
  match cs with
  | [] => none
  | c :: rest =>
    if c = quoteChar then (stringBytes rest).map AsmOperand.text else (parseNumber cs).map AsmOperand.number

/-- The operands of a line, separated by commas (R79); a line may have none. -/
def parseOperands (cs : List Char) : Option (List AsmOperand) :=
  if cs = [] then some [] else allSome ((splitOutside ',' false cs).map (fun p => parseOperand (trimBlanks p)))

/-- The words of one line: its comment, from a semicolon to the end, is left out (R79), and an empty line has no word. -/
def assembleLine (line : List Char) : Option (List CmdWord) :=
  let code := trimBlanks ((splitOutside ';' false line).headD [])
  if code = [] then some []
  else
    let name := code.takeWhile (fun c => !isBlank c)
    (mnemonicNames.lookup name).bind (fun m =>
      (parseOperands (trimBlanks (code.drop name.length))).bind (assembleCommand m))

/-- The words of a whole text; `none` when any line is an assembly error: DESIGN CHOICE, log entry 12. -/
def assemble (source : List Char) : Option (List CmdWord) :=
  (allSome ((splitLines source).map assembleLine)).map List.flatten

/-- The mnemonic of a command (R79). -/
def mnemonicOf : Instr → Mnemonic
  | .enc _ => .enc
  | .dec _ => .dec
  | .pkpush _ => .pkpush
  | .pkflush => .pkflush
  | .upstart _ => .upstart
  | .uppush _ => .uppush
  | .inj _ _ => .inj
  | .dropq _ => .dropq
  | .seed _ => .seed

/-- The operands of a command in the order of R79's table: the codeword of INJ comes before its probability. -/
def operandsOf : Instr → List Nat
  | .enc d => [d.toNat]
  | .dec c => [c.toNat]
  | .pkpush b => [b.toNat]
  | .pkflush => []
  | .upstart n => [n.toNat]
  | .uppush d => [d.toNat]
  | .inj c p => [c.toNat, p.toNat]
  | .dropq p => [p.toNat]
  | .seed v => [v.toNat]

end Sys2Proof.Machine
end

