-- ==== Sys2Proof/Machine/Message.lean ====
section
/-! DEFINITION. The source's functions of whole sequences, independent of the commands: `pack` and `unpack` (41_packer.md R100,
R101), the validator (45_host_pipeline.md R171), and `ProcessPayload` over any random source (R173). The obligations say that
the commands compute them. -/

namespace Sys2Proof.Machine

/-- Bit `t` of a payload's bit string: `s[8i + j] = B[i][7-j]`, and 0 at or past the end (R42, R44). -/
def payloadBit (B : List Byte) (t : Nat) : Bool := (B.getD (t / 8) 0).getLsbD (7 - t % 8)

/-- `ceil(8n / 11)`: the blocks of a payload of `n` bytes (R18, R100). -/
def blockCount (n : Nat) : Nat := (8 * n + 10) / 11

/-- `pack(B)`: `blk[m][10-j] = s[11m + j]` (R100). -/
def pack (B : List Byte) : List Block :=
  (List.range (blockCount B.length)).map (fun m => bitsBE 11 (fun j => payloadBit B (11 * m + j)))

/-- Bit `t` of a block sequence's bit string: `s[11m + j] = K[m][10-j]` (R101). -/
def blockBit (K : List Block) (t : Nat) : Bool := (K.getD (t / 11) 0).getLsbD (10 - t % 11)

/-- `unpack(K, len)`: the whole bytes of the bit string, at most `len` of them (R101). -/
def unpack (K : List Block) (len : Nat) : List Byte :=
  (List.range (min len (11 * K.length / 8))).map (fun i => bitsBE 8 (fun j => blockBit K (8 * i + j)))

/-- `validate(original, reconstructed)`, the flag `mismatch_detected`: byte for byte, true on the first difference or on any
length mismatch (R171). -/
def validate : List Byte → List Byte → Bool
  | [], [] => false
  | [], _ :: _ => true
  | _ :: _, [] => true
  | a :: as, b :: bs => if a ≠ b then true else validate as bs

/-- The source's failure reasons (R173, R192). No run produces one (R176). -/
inductive FailReason where
  | encodingFailure
  | decodingFailure
  deriving DecidableEq, Repr

/-- `Outcome` of `ProcessPayload` (R173). -/
inductive HostOutcome where
  | dropped
  | completed (reconstructed : List Byte) (mismatchDetected : Bool)
  | failed (reason : FailReason)
  deriving DecidableEq, Repr

/-- Every codeword of a message through the channel, in message order, each with its own draws (R139, R172). -/
def injectAll {σ : Type} (src : DrawSource σ) (p : Prob) : List Codeword → σ → List Codeword × σ
  | [], r => ([], r)
  | c :: cs, r =>
    let a := injectBitError src c p r
    let b := injectAll src p cs a.2
    (a.1.cw :: b.1, b.2)

/-- `ProcessPayload(payload, pl, pb, rng)` on whole sequences (R172, R173), for either data order and any source. -/
def processMessage {σ : Type} (o : DataOrder) (src : DrawSource σ) (P : List Byte) (pl pb : Prob) (r : σ) :
    HostOutcome × σ :=
  let q := shouldDropMessage src pl r
  if q.1 then (.dropped, q.2)
  else
    let ch := injectAll src pb ((pack P).map (hammingEncode o)) q.2
    let R := unpack (ch.1.map (hammingDecode o)) P.length
    (.completed R (validate P R), ch.2)

end Sys2Proof.Machine
end

