-- ==== Sys2Proof/Machine/Pipeline.lean ====
section
/-! DEFINITION. The host: the commands it issues for one message (45_host_pipeline.md R172), stage by stage, as a function over
the block's step. Not hardware (R170; log entry 11). -/

namespace Sys2Proof.Machine

/-- The host presents one word, waits for the response, and has it and the state after (R47, R222). The last two cases
never occur: no step faults or is refused. -/
def issue (w : CmdWord) (s : State) : Response × State :=
  match step (s.present (.command w)) with
  | .next t => (t.responses.getLastD Response.blank, t)
  | .fault _ => (Response.blank, s)
  | .refused _ => (Response.blank, s)

/-- The words of a list, one after another; the responses in order. -/
def issueAll : List CmdWord → State → List Response × State
  | [], s => ([], s)
  | w :: ws, s =>
    let a := issue w s
    let b := issueAll ws a.2
    (a.1 :: b.1, b.2)

/-- The block a packer response carries, when it carries one (R75). -/
def Response.emittedBlock (r : Response) : Option Block := if r.blkValid then some r.blk else none

/-- The bytes an unpacker response carries: `byte0` if `nbytes >= 1`, then `byte1` if `nbytes == 2` (R75, R172). -/
def Response.emittedBytes (r : Response) : List Byte :=
  (if 1 ≤ r.nbytes.toNat then [r.byte0] else []) ++ (if r.nbytes.toNat = 2 then [r.byte1] else [])

/-- `PKMSG`: the words that pack a payload (R80). -/
def packWords (P : List Byte) : List CmdWord := P.map (fun b => encode (.pkpush b)) ++ [encode .pkflush]

/-- `UPMSG`: the words that reconstruct `len` bytes (R80). -/
def unpackWords (len : Len) (K : List Block) : List CmdWord :=
  encode (.upstart len) :: K.map (fun d => encode (.uppush d))

/-- The states of the orchestrator (R172). -/
inductive Stage where
  | received
  | dropped
  | encoded
  | channelApplied
  | decoded
  | validated
  | reported
  deriving DecidableEq, Repr

/-- What one message comes to: the outcome, the orchestrator's states in order, and the block afterwards. -/
structure PipelineRun where
  outcome : HostOutcome
  stages : List Stage
  after : State
  deriving DecidableEq, Repr

/-- `ProcessPayload` as the commands of R172. A payload UPSTART cannot be given is refused by the host (R176). -/
def processPayload (P : List Byte) (pl pb : Prob) (s : State) : Option PipelineRun :=
  if Config.maxLen < P.length then none
  else
    let q := issue (encode (.dropq pl)) s
    if q.1.drop then some ⟨.dropped, [.received, .dropped], q.2⟩
    else
      let pk := issueAll (packWords P) q.2
      let K := pk.1.filterMap Response.emittedBlock
      let en := issueAll (K.map (fun d => encode (.enc d))) pk.2
      let ch := issueAll (en.1.map (fun r => encode (.inj r.cw pb))) en.2
      let de := issueAll (ch.1.map (fun r => encode (.dec r.cw))) ch.2
      let up := issueAll (unpackWords (BitVec.ofNat 16 P.length) (de.1.map (fun r => r.block))) de.2
      let R := up.1.flatMap Response.emittedBytes
      some ⟨.completed R (validate P R),
        [.received, .encoded, .channelApplied, .decoded, .validated, .reported], up.2⟩

/-- What the host does before the next message when it abandons one: one PKFLUSH, its response discarded (R195, R212). -/
def abandonMessage (s : State) : State := (issue (encode .pkflush) s).2

end Sys2Proof.Machine
end

