-- ==== Sys2Proof/Machine/Platform.lean ====
section
/-! DEFINITION. Several instances of the block (20_memory.md R52; the open parameter NUM_INSTANCES of 00_scope.md R8; log
entry 10). Which instance moves next is the outside's choice. -/

namespace Sys2Proof.Machine

/-- The instances side by side, each with its own registers, ports and random source (R52). -/
abbrev Platform := List State

/-- Every instance right after reset. -/
def Platform.reset (n : Nat) : Platform := List.replicate n State.reset

/-- The instances of R8's default, `NUM_INSTANCES` = 1. -/
def Platform.standard : Platform := Platform.reset Config.numInstances

/-- Instance `k` takes one step; where there is no such instance, nothing moves. -/
def Platform.stepInstance (p : Platform) (k : Nat) : Platform :=
  match p[k]? with
  | none => p
  | some s =>
    match step s with
    | .next t => p.set k t
    | .fault _ => p
    | .refused _ => p

end Sys2Proof.Machine
end

