-- ==== Sys2Proof/Safety.lean ====
section
/-! DEFINITION. The terms claims use: the invariants of the registers (10_state.md R23, R24, R26), what it is for a command to
answer with a response, and a safe run. -/

namespace Sys2Proof.Machine

/-- The packer's invariant: `PK_CNT` is in 0 to 10 and only the low `PK_CNT` bits of `PK_ACC` can be 1 (R23). -/
abbrev RegistersOf.PackerOk {σ : Type} {lenW : Nat} (g : RegistersOf σ lenW) : Prop :=
  g.pkCnt.toNat ≤ 10 ∧ g.pkAcc.toNat < 2 ^ g.pkCnt.toNat

/-- The unpacker's invariant: only the low `UP_CNT` bits of `UP_ACC` can be 1 (R24); `UP_CNT` is a 3-bit number. -/
abbrev RegistersOf.UnpackerOk {σ : Type} {lenW : Nat} (g : RegistersOf σ lenW) : Prop := g.upAcc.toNat < 2 ^ g.upCnt.toNat

/-- The random source's state is never zero (R26). -/
abbrev RegistersOf.SourceOk {lenW : Nat} (g : RegistersOf LfsrWord lenW) : Prop := g.lfsr ≠ 0

/-- The invariants of the registers together (R211). -/
abbrev RegistersOf.Ok {lenW : Nat} (g : RegistersOf LfsrWord lenW) : Prop := g.PackerOk ∧ g.UnpackerOk ∧ g.SourceOk

/-- The packer is empty, as after reset or PKFLUSH (R108, R211). -/
abbrev RegistersOf.PackerEmpty {σ : Type} {lenW : Nat} (g : RegistersOf σ lenW) : Prop := g.pkCnt = 0 ∧ g.pkAcc = 0

/-- The state that `s` becomes when a command leaves the registers `g` and returns `r`, all else unchanged. -/
def State.after (s : State) (g : Registers) (r : Response) : State :=
  { regs := g, port := s.port, responses := s.responses ++ [r] }

/-- The command completes with a next state: registers `g`, response `r`, and nothing else changed. -/
abbrev Answers (i : Instr) (s : State) (g : Registers) (r : Response) : Prop := exec i s = .next (s.after g r)

/-- A run of `k` steps is safe when none of them stops. -/
def SafeRun (k : Nat) (s : State) : Prop := ∃ t, Host.Core.run Sys2Proof.core k s = .next t

end Sys2Proof.Machine
end

