-- ==== Sys2Proof/Certificates/Slice0/Obligations.lean ====
section
/-! DEFINITION. The statements for the provers, from the numbered rules of spec/, and the few words they are said in. -/

open Sys2Proof Sys2Proof.Machine

/-! ## Words the statements use -/

/-- R73's `zeromask` of each opcode: the bits that must be zero, R71's mask with the opcode nibble removed. -/
def Sys2Proof.Claim.zeroMask : Nat → CmdWord
  | 1 => 0x0FFFF800#32
  | 2 => 0x0FFF8000#32
  | 3 => 0x0FFFFF00#32
  | 4 => 0x0FFFFFFF#32
  | 5 => 0x0FFF0000#32
  | 6 => 0x0FFFF800#32
  | 7 => 0x0C008000#32
  | 8 => 0x0C00FFFF#32
  | 9 => 0x0FFF0000#32
  | _ => 0

/-- R71's table: opcode, mask, match. -/
def Sys2Proof.Claim.opcodeMap : List (Nat × CmdWord × CmdWord) :=
  [ (1, 0xFFFFF800#32, 0x10000000#32), (2, 0xFFFF8000#32, 0x20000000#32), (3, 0xFFFFFF00#32, 0x30000000#32),
    (4, 0xFFFFFFFF#32, 0x40000000#32), (5, 0xFFFF0000#32, 0x50000000#32), (6, 0xFFFFF800#32, 0x60000000#32),
    (7, 0xFC008000#32, 0x70000000#32), (8, 0xFC00FFFF#32, 0x80000000#32), (9, 0xFFFF0000#32, 0x90000000#32) ]

/-- The response with every field 0 but `ill_sticky`, which is `STATUS.ILL` of the registers given (R75). -/
def Sys2Proof.Claim.plain (g : Registers) : Response := { Response.blank with illSticky := g.statusIll }

/-- A response with `ill_sticky` left out of account (R49, R194). -/
def Sys2Proof.Claim.noSticky (r : Response) : Response := { r with illSticky := false }

/-- Whether a word is a command (R71). -/
def Sys2Proof.Claim.legal (w : CmdWord) : Prop := ∃ i, decode w = .command i

/-- The units that hold registers (R32). -/
inductive Sys2Proof.Claim.BlockUnit where
  | packer
  | unpacker
  | source
  deriving DecidableEq, Repr

/-- The unit whose registers a command touches by R32's table; none for ENC and DEC. -/
def Sys2Proof.Claim.unitOf : Instr → Option Claim.BlockUnit
  | .enc _ => none
  | .dec _ => none
  | .pkpush _ => some .packer
  | .pkflush => some .packer
  | .upstart _ => some .unpacker
  | .uppush _ => some .unpacker
  | .inj _ _ => some .source
  | .dropq _ => some .source
  | .seed _ => some .source

/-- The unit a word touches; an illegal word touches no unit's registers (R193). -/
def Sys2Proof.Claim.unitOfWord (w : CmdWord) : Option Claim.BlockUnit := (decode w).instr?.bind Claim.unitOf

/-- The codeword bits of the data positions 3, 5, 6, 7, 9 to 15 in ascending order, `DATA_POS[i] - 1` (R121, R152). -/
def Sys2Proof.Claim.dataBits : List Nat := [2, 4, 5, 6, 8, 9, 10, 11, 12, 13, 14]

/-- The syndrome by R151's lists: bit k is the exclusive-OR of the eight positions whose number has bit k set, position p
being bit p-1. -/
def Sys2Proof.Claim.syndromeOf (cw : Codeword) : Syndrome :=
  BitVec.ofBool (cw.getLsbD 7 ^^ cw.getLsbD 8 ^^ cw.getLsbD 9 ^^ cw.getLsbD 10 ^^ cw.getLsbD 11 ^^ cw.getLsbD 12 ^^
    cw.getLsbD 13 ^^ cw.getLsbD 14) ++
  BitVec.ofBool (cw.getLsbD 3 ^^ cw.getLsbD 4 ^^ cw.getLsbD 5 ^^ cw.getLsbD 6 ^^ cw.getLsbD 11 ^^ cw.getLsbD 12 ^^
    cw.getLsbD 13 ^^ cw.getLsbD 14) ++
  BitVec.ofBool (cw.getLsbD 1 ^^ cw.getLsbD 2 ^^ cw.getLsbD 5 ^^ cw.getLsbD 6 ^^ cw.getLsbD 9 ^^ cw.getLsbD 10 ^^
    cw.getLsbD 13 ^^ cw.getLsbD 14) ++
  BitVec.ofBool (cw.getLsbD 0 ^^ cw.getLsbD 2 ^^ cw.getLsbD 4 ^^ cw.getLsbD 6 ^^ cw.getLsbD 8 ^^ cw.getLsbD 10 ^^
    cw.getLsbD 12 ^^ cw.getLsbD 14)

/-- How many bits of a codeword are 1. -/
def Sys2Proof.Claim.ones (cw : Codeword) : Nat := ((List.range 15).filter (fun i => cw.getLsbD i)).length

/-- The block bit that the flip of a syndrome's position changes: R154's fourth column as a mask. -/
def Sys2Proof.Claim.changedBits : List Block :=
  [0x000, 0x000, 0x000, 0x001, 0x000, 0x002, 0x004, 0x008, 0x000, 0x010, 0x020, 0x040, 0x080, 0x100, 0x200, 0x400]

/-- The first `n` results of `Draw1000` on `LFSR16` when no `Draw15` intervenes (R140). -/
def Sys2Proof.Claim.draws : Nat → LfsrWord → List Nat
  | 0, _ => []
  | n + 1, s => (lfsrDraw1000 s).1 :: Claim.draws n (lfsrDraw1000 s).2

/-- The first `n` results with a `Draw15` after every `Draw1000` (R140). -/
def Sys2Proof.Claim.drawPairs : Nat → LfsrWord → List (Nat × Nat)
  | 0, _ => []
  | n + 1, s =>
    let d := lfsrDraw1000 s
    let e := lfsrDraw15 d.2
    (d.1, e.1) :: Claim.drawPairs n e.2

/-! ## Encoding (30_encoding.md) -/

/-- Decoding the word of any well-formed command, with every operand at every value, gives the command back. -/
def Obligations.DecodeOfEncodeIsTheCommand : Prop :=
  ∀ i : Instr, i.wellFormed = true → decode (encode i) = .command i

/-- A word that decodes to a command is the word of that command, and the command is well formed: no bit is ignored. -/
def Obligations.EncodeOfDecodeIsTheWord : Prop :=
  ∀ (w : CmdWord) (i : Instr), decode w = .command i → encode i = w ∧ i.wellFormed = true

/-- R71: a word selects the command of opcode `n` exactly when `(w & mask) == match` for that row of the map, and for SEED
`w[15:0] != 0`; no two rows match the same word. -/
def Obligations.WordSelectsTheCommandOfItsMapRow : Prop :=
  (∀ (w : CmdWord) (n : Nat),
    (∃ i, decode w = .command i ∧ i.opcode = n) ↔
      ∃ row ∈ Claim.opcodeMap, row.1 = n ∧ w &&& row.2.1 = row.2.2 ∧ (n = 9 → immField w ≠ 0)) ∧
  (∀ (w : CmdWord), ∀ a ∈ Claim.opcodeMap, ∀ b ∈ Claim.opcodeMap,
    w &&& a.2.1 = a.2.2 → w &&& b.2.1 = b.2.2 → a = b)

/-- R72 and R196: an illegal word reports the first failing test, opcode before reserved field before operand. -/
def Obligations.IllegalWordReportsItsFirstFailingTest : Prop :=
  (∀ w : CmdWord, opcodeField w = 0 ∨ 10 ≤ opcodeField w →
    decode w = .illegal .illegalOpcode) ∧
  (∀ w : CmdWord, 1 ≤ opcodeField w → opcodeField w ≤ 9 →
    w &&& Claim.zeroMask (opcodeField w) ≠ 0 → decode w = .illegal .reservedField) ∧
  (∀ w : CmdWord, opcodeField w = 9 → w &&& Claim.zeroMask 9 = 0 → immField w = 0 →
    decode w = .illegal .illegalOperand) ∧
  (∀ w : CmdWord, 1 ≤ opcodeField w → opcodeField w ≤ 9 →
    w &&& Claim.zeroMask (opcodeField w) = 0 →
    (opcodeField w = 9 → immField w ≠ 0) → Claim.legal w) ∧
  decode 0x00000000#32 = .illegal .illegalOpcode ∧ decode 0xFFFFFFFF#32 = .illegal .illegalOpcode ∧
  decode 0x00000001#32 = .illegal .illegalOpcode ∧ decode 0x90010000#32 = .illegal .reservedField

/-- One word of every command, written out from the formats of 30_encoding.md section 2, decodes to the command it stands for:
nine instances of the formats, no statement of them for every operand. -/
def Obligations.SampleWordsDecodeAsTheFormatsSay : Prop :=
  decode 0b0001_0000_0000_0000_0000_0010_0100_0010#32 = .command (.enc 0x242) ∧
  decode 0b0010_0000_0000_0000_0010_0100_0001_1000#32 = .command (.dec 0x2418) ∧
  decode 0b0011_0000_0000_0000_0000_0000_0100_1000#32 = .command (.pkpush 0x48) ∧
  decode 0b0100_0000_0000_0000_0000_0000_0000_0000#32 = .command .pkflush ∧
  decode 0b0101_0000_0000_0000_0000_0000_0000_0101#32 = .command (.upstart 5) ∧
  decode 0b0110_0000_0000_0000_0000_0100_1111_0000#32 = .command (.uppush 0x4F0) ∧
  decode 0b0111_0011_1110_1000_0010_0100_0001_0000#32 = .command (.inj 0x2410 1000) ∧
  decode 0b1000_0011_1110_1000_0000_0000_0000_0000#32 = .command (.dropq 1000) ∧
  decode 0b1001_0000_0000_0000_0000_0000_0000_0001#32 = .command (.seed 1)

/-! ## The step, faults and reset (60_exceptions.md, 70_reset_and_hazards.md) -/

/-- When the next event presented is a word that decodes to a command, the step is `exec` of that command on the state with
the word consumed. -/
def Obligations.StepRunsTheDecodedCommand : Prop :=
  ∀ (s : State) (w : CmdWord) (rest : List PortEvent) (i : Instr),
    s.port = .command w :: rest → decode w = .command i → step s = exec i { s with port := rest }

/-- R193: an illegal word sets `STATUS.ILL`, returns the code with `ill_sticky` = 1 and every other field 0, and changes
nothing else. -/
def Obligations.IllegalWordFaultsAndChangesNothingElse : Prop :=
  ∀ (s : State) (w : CmdWord) (rest : List PortEvent) (f : FaultCode),
    s.port = .command w :: rest → decode w = .illegal f →
    step s = .next
      { regs := { s.regs with statusIll := true }
        port := rest
        responses := s.responses ++ [{ Response.blank with fault := f.code, illSticky := true }] } ∧ f.code ≠ 0

/-- The reset event, between any two commands, loads every register with its reset value. That the host keeps what it
has still to present and what it has already received is the model's choice (log entry 1). -/
def Obligations.ResetEventLoadsEveryRegister : Prop :=
  ∀ (s : State) (rest : List PortEvent), s.port = .reset :: rest →
    step s = .next
      { regs :=
          { pkAcc := 0x000, pkCnt := 0, upAcc := 0x00, upCnt := 0, upRem := 0x0000, lfsr := 0xACE1, statusIll := false }
        port := rest
        responses := s.responses }

/-- R31: every register of the state after reset. -/
def Obligations.ResetStateHoldsTheResetValues : Prop :=
  State.reset.regs.pkAcc = 0 ∧ State.reset.regs.pkCnt = 0 ∧ State.reset.regs.upAcc = 0 ∧ State.reset.regs.upCnt = 0 ∧
  State.reset.regs.upRem = 0 ∧ State.reset.regs.lfsr = 0xACE1 ∧ State.reset.regs.statusIll = false

/-- The packer after reset is as after PKFLUSH, the unpacker as after `UPSTART 0`, the source as after `SEED 0xACE1`: each
of these commands, from any state, leaves its unit as reset leaves it. -/
def Obligations.BoundaryCommandsLeaveTheirUnitAsReset : Prop :=
  ∀ s : State,
    (∃ g r, Answers .pkflush s g r ∧ g.pkAcc = State.reset.regs.pkAcc ∧ g.pkCnt = State.reset.regs.pkCnt) ∧
    (∃ g r, Answers (.upstart 0) s g r ∧ g.upAcc = State.reset.regs.upAcc ∧ g.upCnt = State.reset.regs.upCnt ∧
      g.upRem = State.reset.regs.upRem) ∧
    (∃ g r, Answers (.seed 0xACE1) s g r ∧ g.lfsr = State.reset.regs.lfsr)

/-- No run of any length, from any state and with any events presented, stops with a fault or a refusal. A run longer than its
events goes on by idle steps, and that there is such a step, and that it gives a next state, is the model's (log entry 3);
that a malformed word is answered with a next state, and no stop, is read from the spec by inference (log entry 4). -/
def Obligations.NoRunEverStops : Prop :=
  ∀ (k : Nat) (s : State), SafeRun k s

/-- R27: `STATUS.ILL` is 0 after reset, a faulting command sets it, no command clears it, only reset does, and every response
carries its value after the command. -/
def Obligations.StatusIllIsStickyAndInEveryResponse : Prop :=
  State.reset.regs.statusIll = false ∧
  (∀ (s : State) (w : CmdWord) (rest : List PortEvent), s.port = .command w :: rest →
    ∃ g r, step s = .next { regs := g, port := rest, responses := s.responses ++ [r] } ∧ r.illSticky = g.statusIll ∧
      (Claim.legal w → g.statusIll = s.regs.statusIll) ∧ (¬ Claim.legal w → g.statusIll = true)) ∧
  (∀ (s : State) (rest : List PortEvent), s.port = .reset :: rest →
    ∃ t, step s = .next t ∧ t.regs.statusIll = false)

/-- R191: the code in `rsp.fault` for every word; no other code is ever returned. -/
def Obligations.FaultFieldHoldsTheCodeOfTheWord : Prop :=
  ∀ (s : State) (w : CmdWord) (rest : List PortEvent), s.port = .command w :: rest →
    ∃ g r, step s = .next { regs := g, port := rest, responses := s.responses ++ [r] } ∧
      r.fault.toNat =
        if opcodeField w = 0 ∨ 10 ≤ opcodeField w then 1
        else if w &&& Claim.zeroMask (opcodeField w) ≠ 0 then 2
        else if opcodeField w = 9 ∧ immField w = 0 then 3
        else 0

/-- With nothing presented the block is idle: the step changes nothing and returns no response. The model's choice of what a
step is then (log entry 3). -/
def Obligations.IdleBlockChangesNothing : Prop :=
  ∀ s : State, s.port = [] → step s = .next s

/-- The registers' invariants hold at reset. -/
def Obligations.ResetMeetsTheRegisterInvariants : Prop := State.reset.regs.Ok

/-- Every step, from every state that meets them, keeps the invariants: `PK_CNT` at most 10, no stale bit above either count,
and the LFSR never zero. -/
def Obligations.EveryStepKeepsTheRegisterInvariants : Prop :=
  ∀ s t : State, s.regs.Ok → step s = .next t → t.regs.Ok

/-- What each command leaves unchanged, by R32's table: a command of one unit writes no register of another, ENC and DEC write
none, and no well-formed command writes `STATUS`. -/
def Obligations.CommandsWriteOnlyTheirOwnRegisters : Prop :=
  ∀ (i : Instr) (s : State), i.wellFormed = true → ∃ g r, Answers i s g r ∧
    match i with
    | .enc _ => g = s.regs
    | .dec _ => g = s.regs
    | .pkpush _ => g = { s.regs with pkAcc := g.pkAcc, pkCnt := g.pkCnt }
    | .pkflush => g = { s.regs with pkAcc := g.pkAcc, pkCnt := g.pkCnt }
    | .upstart _ => g = { s.regs with upAcc := g.upAcc, upCnt := g.upCnt, upRem := g.upRem }
    | .uppush _ => g = { s.regs with upAcc := g.upAcc, upCnt := g.upCnt, upRem := g.upRem }
    | .inj _ _ => g = { s.regs with lfsr := g.lfsr }
    | .dropq _ => g = { s.regs with lfsr := g.lfsr }
    | .seed _ => g = { s.regs with lfsr := g.lfsr }

/-- Two words that touch disjoint registers commute: issued in either order they leave the same registers and each gets the
same response, `ill_sticky` aside when one of them faults. -/
def Obligations.WordsOfDisjointUnitsCommute : Prop :=
  ∀ (v w : CmdWord) (s : State),
    Claim.unitOfWord v = none ∨ Claim.unitOfWord w = none ∨ Claim.unitOfWord v ≠ Claim.unitOfWord w →
    let v1 := issue v s
    let w2 := issue w v1.2
    let w1 := issue w s
    let v2 := issue v w1.2
    w2.2.regs = v2.2.regs ∧ Claim.noSticky v1.1 = Claim.noSticky v2.1 ∧ Claim.noSticky w1.1 = Claim.noSticky w2.1 ∧
      (Claim.legal v → Claim.legal w → v1.1 = v2.1 ∧ w1.1 = w2.1)

/-- R194: a set `STATUS.ILL` changes no later command: from two states that differ in it alone, any words give the same
responses but for `ill_sticky` and the same registers but for `STATUS`; it stays 1 through every later command, and the
reset event clears it. -/
def Obligations.SetStatusIllChangesNoLaterCommand : Prop :=
  (∀ (ws : List CmdWord) (s : State),
    let a := issueAll ws { s with regs := { s.regs with statusIll := true } }
    let b := issueAll ws { s with regs := { s.regs with statusIll := false } }
    a.1.map Claim.noSticky = b.1.map Claim.noSticky ∧ (∀ r ∈ a.1, r.illSticky = true) ∧
      a.2.regs.statusIll = true ∧ a.2.regs = { b.2.regs with statusIll := true }) ∧
  (∀ (s : State) (rest : List PortEvent), s.port = .reset :: rest →
    ∃ t, step s = .next t ∧ t.regs.statusIll = false)

/-! ## The encoder (42_encoder.md) -/

/-- R120, R121, R122: ENC completes in every state, changes no register, and its codeword has the block's bits at the data
positions in ascending order and the four parity bits of R122's table. -/
def Obligations.EncPlacesDataAndParityBits : Prop :=
  ∀ (d : Block) (s : State), ∃ cw : Codeword,
    Answers (.enc d) s s.regs { Claim.plain s.regs with cw := cw } ∧
    (∀ i, i < 11 → cw.getLsbD (Claim.dataBits.getD i 0) = d.getLsbD i) ∧
    cw.getLsbD 0 = (d.getLsbD 0 ^^ d.getLsbD 1 ^^ d.getLsbD 3 ^^ d.getLsbD 4 ^^ d.getLsbD 6 ^^ d.getLsbD 8 ^^ d.getLsbD 10) ∧
    cw.getLsbD 1 = (d.getLsbD 0 ^^ d.getLsbD 2 ^^ d.getLsbD 3 ^^ d.getLsbD 5 ^^ d.getLsbD 6 ^^ d.getLsbD 9 ^^ d.getLsbD 10) ∧
    cw.getLsbD 3 = (d.getLsbD 1 ^^ d.getLsbD 2 ^^ d.getLsbD 3 ^^ d.getLsbD 7 ^^ d.getLsbD 8 ^^ d.getLsbD 9 ^^ d.getLsbD 10) ∧
    cw.getLsbD 7 = (d.getLsbD 4 ^^ d.getLsbD 5 ^^ d.getLsbD 6 ^^ d.getLsbD 7 ^^ d.getLsbD 8 ^^ d.getLsbD 9 ^^ d.getLsbD 10)

/-- The encoder is linear over exclusive-OR in either data order, and for `ascending` the eleven single-bit blocks have the
codewords of R124's table. -/
def Obligations.EncoderIsLinearWithTheGeneratorRows : Prop :=
  (∀ (o : DataOrder) (a b : Block), hammingEncode o (a ^^^ b) = hammingEncode o a ^^^ hammingEncode o b) ∧
  (∀ o : DataOrder, hammingEncode o 0 = 0) ∧
  (List.range 11).map (fun i => hammingEncode .ascending (1#11 <<< i)) =
    [0x0007, 0x0019, 0x002A, 0x004B, 0x0181, 0x0282, 0x0483, 0x0888, 0x1089, 0x208A, 0x408B]

/-- The values with syndrome 0 are exactly the codewords, the encoder is injective, and reading a codeword's data bits back
gives its block. -/
def Obligations.SyndromeIsZeroExactlyOnCodewords : Prop :=
  ∀ o : DataOrder,
    (∀ cw : Codeword, hammingSyndrome cw = 0 ↔ ∃ d, hammingEncode o d = cw) ∧
    (∀ d : Block, hammingExtract o (hammingEncode o d) = d) ∧
    (∀ a b : Block, hammingEncode o a = hammingEncode o b → a = b)

/-- Two distinct blocks have codewords that differ in at least 3 bits, and 3 is attained. -/
def Obligations.DistinctCodewordsDifferInThreeBits : Prop :=
  ∀ o : DataOrder,
    (∀ a b : Block, a ≠ b → 3 ≤ Claim.ones (hammingEncode o a ^^^ hammingEncode o b)) ∧
    (∃ a b : Block, Claim.ones (hammingEncode o a ^^^ hammingEncode o b) = 3)

/-! ## The decoder (44_decoder.md) -/

/-- R150, R152, R153: DEC completes in every state, changes no register, returns the syndrome, flips the bit the syndrome
names, reads the data positions off, reports `corrected` exactly when the syndrome is not 0, and never `uncorrectable`. The
syndrome is `Claim.syndromeOf`, written out from R151's lists. -/
def Obligations.DecCorrectsAndExtracts : Prop :=
  ∀ (cw : Codeword) (s : State), ∃ block : Block,
    Answers (.dec cw) s s.regs
      { Claim.plain s.regs with
        block := block
        corrected := decide (Claim.syndromeOf cw ≠ 0)
        uncorrectable := false
        syndrome := Claim.syndromeOf cw } ∧
    ∀ i, i < 11 → block.getLsbD i =
      (if Claim.syndromeOf cw ≠ 0 then cw ^^^ (1#15 <<< ((Claim.syndromeOf cw).toNat - 1)) else cw).getLsbD
        (Claim.dataBits.getD i 0)

/-- The model's syndrome, by which other statements speak, is R151's; equally it is the exclusive-OR of the numbers of the
positions that hold 1; it is linear; and a codeword with the bit at position p flipped has syndrome p. -/
def Obligations.SyndromeHasItsEqualForms : Prop :=
  (∀ cw : Codeword, hammingSyndrome cw = Claim.syndromeOf cw ∧
    hammingSyndrome cw =
      ((List.range 16).filter (fun p => decide (1 ≤ p) && cw.getLsbD (p - 1))).foldl
        (fun x p => x ^^^ BitVec.ofNat 4 p) 0) ∧
  (∀ a b : Codeword, hammingSyndrome (a ^^^ b) = hammingSyndrome a ^^^ hammingSyndrome b) ∧
  (∀ (o : DataOrder) (d : Block) (p : Nat), 1 ≤ p → p ≤ 15 →
    (hammingSyndrome (hammingEncode o d ^^^ (1#15 <<< (p - 1)))).toNat = p)

/-- R156: DEC of a codeword returns its block unmarked, and DEC of a codeword with any one bit flipped, data or parity, returns
the original block, `corrected` = 1 and the position. -/
def Obligations.DecRecoversEveryBlockUnderOneError : Prop :=
  ∀ (d : Block) (s : State),
    Answers (.dec (hammingEncode Config.dataOrder d)) s s.regs { Claim.plain s.regs with block := d } ∧
    ∀ i, i < 15 →
      Answers (.dec (hammingEncode Config.dataOrder d ^^^ (1#15 <<< i))) s s.regs
        { Claim.plain s.regs with block := d, corrected := true, syndrome := BitVec.ofNat 4 (i + 1) }

/-- With `DATA_ORDER = descending` block bit i is at the (11-i)-th smallest data position and the parity rule is unchanged,
and under either order decoding recovers every block from zero or one bit error. -/
def Obligations.EitherDataOrderKeepsTheGuarantee : Prop :=
  (∀ d : Block,
    (∀ i, i < 11 → (hammingEncode .descending d).getLsbD (Claim.dataBits.getD (10 - i) 0) = d.getLsbD i) ∧
    hammingSyndrome (hammingEncode .descending d) = 0) ∧
  (∀ (o : DataOrder) (d : Block),
    hammingDecode o (hammingEncode o d) = d ∧
    ∀ i, i < 15 → hammingDecode o (hammingEncode o d ^^^ (1#15 <<< i)) = d)

/-- For every 15-bit word, the block DEC returns is that of the one codeword at most one bit away. -/
def Obligations.DecReturnsTheNearestCodewordsBlock : Prop :=
  ∀ (o : DataOrder) (cw : Codeword),
    Claim.ones (hammingEncode o (hammingDecode o cw) ^^^ cw) ≤ 1 ∧
    hammingCorrect cw = hammingEncode o (hammingDecode o cw) ∧
    ∀ d : Block, Claim.ones (hammingEncode o d ^^^ cw) ≤ 1 → d = hammingDecode o cw

/-- Exactly two flipped positions a and b: the syndrome is `a ^ b`, none of 0, a, b, and DEC answers with a wrong block,
`corrected` = 1 and `uncorrectable` = 0. -/
def Obligations.TwoErrorsAlwaysGiveAWrongBlock : Prop :=
  ∀ (d : Block) (s : State) (a b : Nat), 1 ≤ a → a ≤ 15 → 1 ≤ b → b ≤ 15 → a ≠ b →
    a ^^^ b ≠ 0 ∧ a ^^^ b ≠ a ∧ a ^^^ b ≠ b ∧
    ∃ block : Block, block ≠ d ∧
      Answers (.dec (flipPos (flipPos (hammingEncode Config.dataOrder d) a) b)) s s.regs
        { Claim.plain s.regs with block := block, corrected := true, syndrome := BitVec.ofNat 4 (a ^^^ b) }

/-- Three distinct flipped positions: the block is never the original, and the error goes unnoticed, syndrome 0 and
`corrected` = 0, exactly when `a ^ b ^ c = 0`. -/
def Obligations.ThreeErrorsNeverGiveTheOriginal : Prop :=
  ∀ (d : Block) (s : State) (a b c : Nat), 1 ≤ a → a ≤ 15 → 1 ≤ b → b ≤ 15 → 1 ≤ c → c ≤ 15 → a ≠ b → a ≠ c → b ≠ c →
    ∃ block : Block, block ≠ d ∧
      Answers (.dec (flipPos (flipPos (flipPos (hammingEncode Config.dataOrder d) a) b) c)) s s.regs
        { Claim.plain s.regs with
          block := block
          corrected := decide (a ^^^ b ^^^ c ≠ 0)
          syndrome := BitVec.ofNat 4 (a ^^^ b ^^^ c) }

/-- R154's table as a shorter circuit: the block is the uncorrected data bits with the one block bit of the syndrome's row
changed, none for the parity positions. -/
def Obligations.BlockIsUncorrectedDataXorTheSyndromesMask : Prop :=
  ∀ cw : Codeword,
    hammingDecode .ascending cw =
      hammingExtract .ascending cw ^^^ Claim.changedBits.getD (hammingSyndrome cw).toNat 0

/-! ## The packer and the unpacker (41_packer.md) -/

/-- R102: PKPUSH completes in every state whose `PK_CNT` is in its range. With `t` the number `PK_ACC * 256 + byte` and `c` =
`PK_CNT` + 8, it emits the 11 oldest of the `c` bits when there are 11, and keeps the others. -/
def Obligations.PkpushAppendsTheByteAndEmitsABlock : Prop :=
  ∀ (byte : Byte) (s : State), s.regs.pkCnt.toNat ≤ 10 →
    let t := s.regs.pkAcc.toNat * 256 + byte.toNat
    let c := s.regs.pkCnt.toNat + 8
    ∃ (acc : BitVec 10) (cnt : BitVec 4) (blk : Block),
      Answers (.pkpush byte) s { s.regs with pkAcc := acc, pkCnt := cnt }
        { Claim.plain s.regs with blkValid := decide (11 ≤ c), blk := blk } ∧
      (11 ≤ c → blk.toNat = t / 2 ^ (c - 11) % 2 ^ 11 ∧ cnt.toNat = c - 11 ∧ acc.toNat = t % 2 ^ (c - 11)) ∧
      (c < 11 → blk = 0 ∧ cnt.toNat = c ∧ acc.toNat = t % 2 ^ 10)

/-- R104: PKFLUSH completes in every state whose `PK_CNT` is in its range: it emits the leftover bits at the high end with
zeros below, or nothing when there are none, and empties the packer. -/
def Obligations.PkflushPadsTheLastBlockAndEmpties : Prop :=
  ∀ s : State, s.regs.pkCnt.toNat ≤ 10 →
    ∃ blk : Block,
      Answers .pkflush s { s.regs with pkAcc := 0, pkCnt := 0 }
        { Claim.plain s.regs with blkValid := decide (0 < s.regs.pkCnt.toNat), blk := blk } ∧
      (0 < s.regs.pkCnt.toNat → blk.toNat = s.regs.pkAcc.toNat * 2 ^ (11 - s.regs.pkCnt.toNat) % 2 ^ 11) ∧
      (s.regs.pkCnt.toNat = 0 → blk = 0)

/-- R105: UPSTART completes in every state and leaves the unpacker empty with the length loaded; its response has no field. -/
def Obligations.UpstartEmptiesAndLoadsTheLength : Prop :=
  ∀ (len : Len) (s : State),
    Answers (.upstart len) s { s.regs with upAcc := 0, upCnt := 0, upRem := len } (Claim.plain s.regs)

/-- R106: UPPUSH completes in every state. With `t` the number `UP_ACC * 2048 + data11`, `c` = `UP_CNT` + 11, `k` = `c div 8`
and `m` = `min(k, UP_REM)`, it emits the first `m` of the `k` whole bytes, counts them off, and keeps the `c mod 8` newest
bits. -/
def Obligations.UppushEmitsWholeBytesWithinTheLength : Prop :=
  ∀ (data11 : Block) (s : State),
    let t := s.regs.upAcc.toNat * 2048 + data11.toNat
    let c := s.regs.upCnt.toNat + 11
    let k := c / 8
    let m := min k s.regs.upRem.toNat
    ∃ (acc : BitVec 7) (cnt : BitVec 3) (rem : Len) (nbytes : BitVec 2) (byte0 byte1 : Byte),
      Answers (.uppush data11) s { s.regs with upAcc := acc, upCnt := cnt, upRem := rem }
        { Claim.plain s.regs with nbytes := nbytes, byte0 := byte0, byte1 := byte1 } ∧
      nbytes.toNat = m ∧ rem.toNat = s.regs.upRem.toNat - m ∧ cnt.toNat = c % 8 ∧ acc.toNat = t % 2 ^ (c % 8) ∧
      (1 ≤ m → byte0.toNat = t / 2 ^ (c - 8) % 2 ^ 8) ∧ (m = 0 → byte0 = 0) ∧
      (m = 2 → byte1.toNat = t / 2 ^ (c - 16) % 2 ^ 8) ∧ (m < 2 → byte1 = 0)

/-- From an empty packer, after n bytes `PK_CNT = (8n) mod 11` and `(8n) div 11` blocks have been emitted. -/
def Obligations.PackerCountAfterEveryByte : Prop :=
  ∀ (P : List Byte) (s : State), s.regs.PackerEmpty →
    let a := issueAll (P.map (fun b => encode (.pkpush b))) s
    a.2.regs.pkCnt.toNat = 8 * P.length % 11 ∧ (a.1.filterMap Response.emittedBlock).length = 8 * P.length / 11

/-- After `UPSTART len` and M blocks, `UP_CNT = (11M) mod 8`, `min(len, (11M) div 8)` bytes have been emitted and `UP_REM` holds
the rest of the length: too few or too many blocks are no fault. -/
def Obligations.UnpackerCountAfterEveryBlock : Prop :=
  ∀ (len : Len) (K : List Block) (s : State),
    let a := issueAll (unpackWords len K) s
    a.2.regs.upCnt.toNat = 11 * K.length % 8 ∧
    (a.1.flatMap Response.emittedBytes).length = min len.toNat (11 * K.length / 8) ∧
    a.2.regs.upRem.toNat = len.toNat - 11 * K.length / 8 ∧ a.2.regs.statusIll = s.regs.statusIll

/-- R100 and R101: `pack` gives `ceil(8n / 11)` blocks, none for the empty sequence, whose bits are the payload's bits in order
with zeros after them; equally, the blocks are the 11-bit digits of the payload's number shifted left by the padding.
`unpack` gives the whole bytes of the blocks' bits in order, `min(len, (11M) div 8)` of them. -/
def Obligations.PackAndUnpackSliceTheBitString : Prop :=
  (∀ B : List Byte,
    (pack B).length = (8 * B.length + 10) / 11 ∧ (B = [] → pack B = []) ∧
    (∀ m j, m < (pack B).length → j < 11 →
      ((pack B).getD m 0).getLsbD (10 - j) =
        if 11 * m + j < 8 * B.length then (B.getD ((11 * m + j) / 8) 0).getLsbD (7 - (11 * m + j) % 8) else false) ∧
    (∀ m, m < (pack B).length →
      ((pack B).getD m 0).toNat =
        B.foldl (fun v b => v * 256 + b.toNat) 0 * 2 ^ (11 * (pack B).length - 8 * B.length) /
          2 ^ (11 * ((pack B).length - 1 - m)) % 2 ^ 11)) ∧
  (∀ (K : List Block) (len : Nat),
    (unpack K len).length = min len (11 * K.length / 8) ∧
    (∀ i j, i < (unpack K len).length → j < 8 →
      ((unpack K len).getD i 0).getLsbD (7 - j) =
        (K.getD ((8 * i + j) / 11) 0).getLsbD (10 - (8 * i + j) % 11)))

/-- From an empty packer, PKPUSH of every byte and PKFLUSH return exactly `pack(B)`, leave the packer empty and touch no other
register. -/
def Obligations.PackerCommandsComputePack : Prop :=
  ∀ (B : List Byte) (s : State), s.regs.PackerEmpty →
    (issueAll (packWords B) s).1.filterMap Response.emittedBlock = pack B ∧ (issueAll (packWords B) s).2.regs = s.regs

/-- From any state, UPSTART and UPPUSH of every block return exactly `unpack(K, len)`. -/
def Obligations.UnpackerCommandsComputeUnpack : Prop :=
  ∀ (len : Len) (K : List Block) (s : State),
    (issueAll (unpackWords len K) s).1.flatMap Response.emittedBytes = unpack K len.toNat

/-- `unpack(pack(B), len(B)) == B` for every byte sequence. -/
def Obligations.UnpackOfPackIsThePayload : Prop :=
  ∀ B : List Byte, unpack (pack B) B.length = B

/-! ## The channel and its random source (43_channel.md) -/

/-- The bits of one LFSR step; the step is injective, fixes 0, and takes a non-zero state to a non-zero state. -/
def Obligations.LfsrStepShiftsInTheTapSum : Prop :=
  (∀ s : LfsrWord, (∀ i, i < 15 → (lfsrStep s).getLsbD i = s.getLsbD (i + 1)) ∧
    (lfsrStep s).getLsbD 15 = (s.getLsbD 0 ^^ s.getLsbD 2 ^^ s.getLsbD 3 ^^ s.getLsbD 5)) ∧
  (∀ a b : LfsrWord, lfsrStep a = lfsrStep b → a = b) ∧ lfsrStep 0 = 0 ∧ (∀ s : LfsrWord, s ≠ 0 → lfsrStep s ≠ 0)

/-- The non-zero states lie on one cycle of length 65535: from a non-zero state the step first returns after 65535 steps. -/
def Obligations.LfsrHasTheFullPeriod : Prop :=
  ∀ s : LfsrWord, s ≠ 0 → lfsrStepN s 65535 = s ∧ ∀ n, 0 < n → n < 65535 → lfsrStepN s n ≠ s

/-- `Draw1000`, from every state: the first round of 10 steps whose top 10 bits are below 1000, which comes within 3 rounds. -/
def Obligations.Draw1000IsTheFirstAcceptedRound : Prop :=
  ∀ s : LfsrWord, ∃ k, 1 ≤ k ∧ k ≤ 3 ∧
    lfsrDraw1000 s = (((lfsrStepN s (10 * k)).extractLsb' 6 10).toNat, lfsrStepN s (10 * k)) ∧
    (lfsrDraw1000 s).1 < 1000 ∧
    ∀ j, 1 ≤ j → j < k → 1000 ≤ ((lfsrStepN s (10 * j)).extractLsb' 6 10).toNat

/-- `Draw15`, from every state: the first round of 4 steps whose top 4 bits are below 15, which comes within 5 rounds. -/
def Obligations.Draw15IsTheFirstAcceptedRound : Prop :=
  ∀ s : LfsrWord, ∃ k, 1 ≤ k ∧ k ≤ 5 ∧
    lfsrDraw15 s = (((lfsrStepN s (4 * k)).extractLsb' 12 4).toNat, lfsrStepN s (4 * k)) ∧
    (lfsrDraw15 s).1 < 15 ∧
    ∀ j, 1 ≤ j → j < k → 15 ≤ ((lfsrStepN s (4 * j)).extractLsb' 12 4).toNat

/-- The two draw sequences from the reset state that R140 lists. -/
def Obligations.DrawSequencesFromReset : Prop :=
  Claim.draws 10 State.reset.regs.lfsr = [802, 465, 67, 631, 483, 517, 296, 957, 534, 79] ∧
  Claim.drawPairs 6 State.reset.regs.lfsr = [(802, 1), (221, 4), (476, 14), (376, 1), (648, 4), (957, 6)]

/-- R130: the machine's source answers in the two ranges, and the rules of INJ and DROPQ depend on any source only through the
numbers it returns. -/
def Obligations.ChannelDependsOnlyOnInRangeDraws : Prop :=
  lfsr16.InRange ∧
  ∀ (σ τ : Type) (a : DrawSource σ) (b : DrawSource τ) (r : σ) (q : τ) (cw : Codeword) (p : Prob),
    (a.draw1000 r).1 = (b.draw1000 q).1 →
    (shouldDropMessage a p r).1 = (shouldDropMessage b p q).1 ∧
    ((a.draw15 (a.draw1000 r).2).1 = (b.draw15 (b.draw1000 q).2).1 →
      (injectBitError a cw p r).1 = (injectBitError b cw p q).1)

/-- R132: INJ completes in every state. It draws once; when the draw is below the probability it draws the position, returns the
codeword with that bit flipped, `flipped` = 1 and the index; otherwise it returns the codeword unchanged. Only the random
source changes. -/
def Obligations.InjFlipsTheDrawnBit : Prop :=
  ∀ (cw : Codeword) (p : Prob) (s : State),
    let d := lfsrDraw1000 s.regs.lfsr
    let e := lfsrDraw15 d.2
    (d.1 < p.toNat →
      ∃ (out : Codeword) (pos : BitVec 4),
        Answers (.inj cw p) s { s.regs with lfsr := e.2 }
          { Claim.plain s.regs with cw := out, flipped := true, pos := pos } ∧
        pos.toNat = e.1 ∧ e.1 < 15 ∧ ∀ i, i < 15 → out.getLsbD i = (cw.getLsbD i ^^ decide (i = e.1))) ∧
    (¬ d.1 < p.toNat →
      Answers (.inj cw p) s { s.regs with lfsr := d.2 } { Claim.plain s.regs with cw := cw })

/-- For every source whose answers are in range, one injection changes at most one bit, and says so exactly when it does. -/
def Obligations.OneInjectionFlipsAtMostOneBit : Prop :=
  ∀ (σ : Type) (src : DrawSource σ) (cw : Codeword) (p : Prob) (r : σ), src.InRange →
    let a := (injectBitError src cw p r).1
    Claim.ones (a.cw ^^^ cw) = (if a.flipped then 1 else 0) ∧
    (a.flipped = true → a.pos.toNat < 15 ∧ a.cw = cw ^^^ (1#15 <<< a.pos.toNat)) ∧ (a.flipped = false → a.pos = 0)

/-- R133: DROPQ completes in every state, makes one draw, and answers whether it is below the threshold. -/
def Obligations.DropqAnswersWhetherTheDrawIsBelow : Prop :=
  ∀ (p : Prob) (s : State),
    Answers (.dropq p) s { s.regs with lfsr := (lfsrDraw1000 s.regs.lfsr).2 }
      { Claim.plain s.regs with drop := decide ((lfsrDraw1000 s.regs.lfsr).1 < p.toNat) }

/-- For every source whose answers are in range: probability 0 never fires, and 1000 and above always fires, for the drop and
for the flip. -/
def Obligations.ProbabilityBoundaryHoldsForEverySource : Prop :=
  ∀ (σ : Type) (src : DrawSource σ) (cw : Codeword) (p : Prob) (r : σ), src.InRange →
    (p = 0 → (shouldDropMessage src p r).1 = false ∧ (injectBitError src cw p r).1.flipped = false) ∧
    (1000 ≤ p.toNat → (shouldDropMessage src p r).1 = true ∧ (injectBitError src cw p r).1.flipped = true)

/-- R138: SEED with any value but 0 completes in every state and loads the source; SEED 0 is refused with `ILLEGAL_OPERAND` and
leaves the source alone; and two runs of the same words after the same SEED, from states that differ in the source alone,
give the same responses. -/
def Obligations.SeedLoadsTheSourceReproducibly : Prop :=
  (∀ (v : LfsrWord) (s : State), v ≠ 0 → Answers (.seed v) s { s.regs with lfsr := v } (Claim.plain s.regs)) ∧
  (∀ s : State, (issue 0x90000000#32 s).1 = { Response.blank with fault := 3, illSticky := true } ∧
    (issue 0x90000000#32 s).2.regs = { s.regs with statusIll := true }) ∧
  (∀ (v : LfsrWord) (ws : List CmdWord) (a b : State), v ≠ 0 → a.regs = { b.regs with lfsr := a.regs.lfsr } →
    (issueAll (encode (.seed v) :: ws) a).1 = (issueAll (encode (.seed v) :: ws) b).1)

/-! ## The host's pipeline, several instances, the assembler (45_host_pipeline.md, R52, R79, R80) -/

/-- R171: `mismatch_detected` is false exactly when the two sequences are the same. -/
def Obligations.ValidatorIsFalseExactlyOnEqualSequences : Prop :=
  ∀ A B : List Byte,
    validate A B = false ↔ A.length = B.length ∧ ∀ i, i < A.length → A.getD i 0 = B.getD i 0

/-- The commands of R172, issued from a state with an empty packer, come to the same outcome and the same random-source state as
`ProcessPayload` on whole sequences. The host's refusal of a payload over 65535 bytes is log entry 11. -/
def Obligations.PipelineCommandsComputeProcessPayload : Prop :=
  ∀ (P : List Byte) (pl pb : Prob) (s : State), s.regs.PackerEmpty →
    (P.length ≤ 65535 → ∃ run, processPayload P pl pb s = some run ∧
      (run.outcome, run.after.regs.lfsr) = processMessage Config.dataOrder lfsr16 P pl pb s.regs.lfsr ∧
      run.after.regs.statusIll = s.regs.statusIll) ∧
    (65535 < P.length → processPayload P pl pb s = none)

/-- For every source whose answers are in range, either data order, every payload and every pair of probabilities: a message
that is not dropped comes back exactly, with no mismatch. -/
def Obligations.MessageIsRecoveredForEverySource : Prop :=
  ∀ (σ : Type) (src : DrawSource σ) (o : DataOrder) (P : List Byte) (pl pb : Prob) (r : σ), src.InRange →
    (processMessage o src P pl pb r).1 =
      if (shouldDropMessage src pl r).1 then HostOutcome.dropped else HostOutcome.completed P false

/-- The stages a message passes through; a dropped message costs one command and one draw and transforms nothing. -/
def Obligations.DroppedMessageTransformsNothing : Prop :=
  ∀ (P : List Byte) (pl pb : Prob) (s : State) (run : PipelineRun), processPayload P pl pb s = some run →
    ((lfsrDraw1000 s.regs.lfsr).1 < pl.toNat →
      run.outcome = .dropped ∧ run.stages = [.received, .dropped] ∧
      run.after.regs = { s.regs with lfsr := (lfsrDraw1000 s.regs.lfsr).2 } ∧
      run.after.responses.length = s.responses.length + 1) ∧
    (¬ (lfsrDraw1000 s.regs.lfsr).1 < pl.toNat →
      (∃ R m, run.outcome = .completed R m) ∧
      run.stages = [.received, .encoded, .channelApplied, .decoded, .validated, .reported])

/-- What a completed message leaves in the block: the packer empty, the length counted down to 0, and the padding bits'
count in the unpacker. -/
def Obligations.CompletedMessageLeavesTheUnitsClean : Prop :=
  ∀ (P : List Byte) (pl pb : Prob) (s : State) (run : PipelineRun), s.regs.PackerEmpty →
    processPayload P pl pb s = some run → run.outcome ≠ .dropped →
    run.after.regs.PackerEmpty ∧ run.after.regs.upRem = 0 ∧
    run.after.regs.upCnt.toNat = 11 * ((8 * P.length + 10) / 11) % 8 ∧ run.after.regs.statusIll = s.regs.statusIll

/-- The PKFLUSH by which a host abandons a message leaves the packer empty and every other register as it was. -/
def Obligations.AbandonedMessageLeavesThePackerEmpty : Prop :=
  ∀ s : State, (abandonMessage s).regs = { s.regs with pkAcc := 0, pkCnt := 0 }

/-- Instances share nothing: a step of one is `step` of its own state and leaves every other as it was, and steps of two
instances come to the same in either order. -/
def Obligations.InstancesShareNothing : Prop :=
  (∀ (p : Platform) (k : Nat) (s t : State), p[k]? = some s → step s = .next t →
    (p.stepInstance k)[k]? = some t) ∧
  (∀ (p : Platform) (j k : Nat), j ≠ k → (p.stepInstance k)[j]? = p[j]?) ∧
  (∀ (p : Platform) (j k : Nat), j ≠ k →
    (p.stepInstance j).stepInstance k = (p.stepInstance k).stepInstance j)

/-- The table of the assembler syntax and the two pseudo-commands: every well-formed command, written as its mnemonic and
operands, assembles to its word; an operand outside its range is an assembly error; PKMSG and UPMSG assemble to the words
of their sequences. The clause about UPMSG covers an UPMSG with a length and no block, which is UPSTART alone: that this may
be written is the model's choice (log entry 12). -/
def Obligations.AssemblerGivesTheWordsOfTheTable : Prop :=
  (∀ i : Instr, i.wellFormed = true →
    assembleCommand (mnemonicOf i) ((operandsOf i).map AsmOperand.number) = some [encode i]) ∧
  (∀ n, (2 ^ 11 ≤ n → assembleCommand .enc [.number n] = none ∧ assembleCommand .uppush [.number n] = none) ∧
    (2 ^ 15 ≤ n → assembleCommand .dec [.number n] = none ∧
      ∀ p, assembleCommand .inj [.number n, .number p] = none) ∧
    (2 ^ 8 ≤ n → assembleCommand .pkpush [.number n] = none) ∧
    (2 ^ 10 ≤ n → assembleCommand .dropq [.number n] = none ∧
      ∀ c, assembleCommand .inj [.number c, .number n] = none) ∧
    (2 ^ 16 ≤ n → assembleCommand .upstart [.number n] = none ∧ assembleCommand .seed [.number n] = none)) ∧
  assembleCommand .seed [.number 0] = none ∧
  (∀ P : List Byte, assembleCommand .pkmsg (P.map (fun b => .number b.toNat)) = some (packWords P) ∧
    assembleCommand .pkmsg [.text P] = some (packWords P)) ∧
  (∀ (len : Len) (K : List Block),
    assembleCommand .upmsg (.number len.toNat :: K.map (fun d => .number d.toNat)) = some (unpackWords len K))
end

