-- ==== Sys2Proof/Laws/Code.lean ====
section
/-! SUPPORT. The positions of the Hamming code written out, and the parities as plain exclusive-ORs over them. -/

namespace Sys2Proof.Machine

theorem positionsWith_zero : positionsWith 0 = [1, 3, 5, 7, 9, 11, 13, 15] := by decide
theorem positionsWith_one : positionsWith 1 = [2, 3, 6, 7, 10, 11, 14, 15] := by decide
theorem positionsWith_two : positionsWith 2 = [4, 5, 6, 7, 12, 13, 14, 15] := by decide
theorem positionsWith_three : positionsWith 3 = [8, 9, 10, 11, 12, 13, 14, 15] := by decide

@[simp] theorem xorAt_nil (cw : Codeword) : xorAt cw [] = false := rfl

/-- Accumulating an exclusive-OR from a start value is the start value with the whole exclusive-OR added. -/
theorem foldl_xor_atPos (cw : Codeword) (ps : List Nat) (b : Bool) :
    ps.foldl (fun b p => b ^^ atPos cw p) b = (b ^^ xorAt cw ps) := by
  induction ps generalizing b with
  | nil => exact (Bool.xor_false b).symm
  | cons p ps ih =>
    have h := ih (false ^^ atPos cw p)
    rw [Bool.false_xor] at h
    rw [List.foldl_cons, ih, Bool.xor_assoc, ← h]
    simp only [xorAt, List.foldl_cons, Bool.false_xor]

/-- The first position may be taken out of an exclusive-OR over positions. -/
theorem xorAt_cons (cw : Codeword) (p : Nat) (ps : List Nat) : xorAt cw (p :: ps) = (atPos cw p ^^ xorAt cw ps) := by
  rw [xorAt, List.foldl_cons, foldl_xor_atPos, Bool.false_xor]

/-- An exclusive-OR over positions is linear in the codeword. -/
theorem xorAt_xor (a b : Codeword) (ps : List Nat) : xorAt (a ^^^ b) ps = (xorAt a ps ^^ xorAt b ps) := by
  induction ps with
  | nil => rfl
  | cons p ps ih =>
    simp only [xorAt_cons, ih, atPos, BitVec.getLsbD_xor]
    cases a.getLsbD (p - 1) <;> cases b.getLsbD (p - 1) <;> cases xorAt a ps <;> cases xorAt b ps <;> rfl

end Sys2Proof.Machine
end

