-- ==== Sys2Proof/Laws/State.lean ====
section
/-! SUPPORT. The small lemmas of `State` and of the operations over it: one per field per update, each true by unfolding. -/

namespace Sys2Proof.Machine

variable (s : State) (g : Registers) (r : Response) (f : FaultCode) (e : PortEvent)

@[simp] theorem State.after_regs : (s.after g r).regs = g := rfl
@[simp] theorem State.after_port : (s.after g r).port = s.port := rfl
@[simp] theorem State.after_responses : (s.after g r).responses = s.responses ++ [r] := rfl

/-- Completing a command is `after` with the response sealed by the registers it leaves. -/
@[simp] theorem State.complete_eq_after : s.complete r g = s.after g (r.sealed g) := rfl

/-- Answering is `after` with the response sealed by the registers it leaves. -/
@[simp] theorem State.answer_eq_after (a : Registers × Response) : s.answer a = s.after a.1 (a.2.sealed a.1) := rfl

/-- The fault's registers and response fields, for any source and length width. -/
@[simp] theorem faultRule_fst {σ : Type} {lenW : Nat} (f : FaultCode) (g : RegistersOf σ lenW) :
    (faultRule f g).1 = { g with statusIll := true } := rfl
@[simp] theorem faultRule_snd {σ : Type} {lenW : Nat} (f : FaultCode) (g : RegistersOf σ lenW) :
    (faultRule f g).2 = { Response.blank with fault := f.code } := rfl

/-- A fault in the same terms: `STATUS.ILL` set, the code and `ill_sticky` in the response. -/
theorem State.raiseFault_eq_after :
    s.raiseFault f =
      s.after { s.regs with statusIll := true } { Response.blank with fault := f.code, illSticky := true } := rfl

@[simp] theorem State.takeReset_regs : s.takeReset.regs = Registers.reset := rfl
@[simp] theorem State.takeReset_port : s.takeReset.port = s.port := rfl
@[simp] theorem State.takeReset_responses : s.takeReset.responses = s.responses := rfl

@[simp] theorem State.present_regs : (s.present e).regs = s.regs := rfl
@[simp] theorem State.present_port : (s.present e).port = e :: s.port := rfl
@[simp] theorem State.present_responses : (s.present e).responses = s.responses := rfl

/-- Taking the next event gives a just presented event and the state as it was before. -/
@[simp] theorem State.nextEvent_present : (s.present e).nextEvent = (some e, s) := rfl

@[simp] theorem Response.sealed_illSticky : (r.sealed g).illSticky = g.statusIll := rfl
@[simp] theorem Response.sealed_fault : (r.sealed g).fault = r.fault := rfl
@[simp] theorem Response.sealed_blkValid : (r.sealed g).blkValid = r.blkValid := rfl
@[simp] theorem Response.sealed_blk : (r.sealed g).blk = r.blk := rfl
@[simp] theorem Response.sealed_nbytes : (r.sealed g).nbytes = r.nbytes := rfl
@[simp] theorem Response.sealed_byte0 : (r.sealed g).byte0 = r.byte0 := rfl
@[simp] theorem Response.sealed_byte1 : (r.sealed g).byte1 = r.byte1 := rfl
@[simp] theorem Response.sealed_cw : (r.sealed g).cw = r.cw := rfl
@[simp] theorem Response.sealed_block : (r.sealed g).block = r.block := rfl
@[simp] theorem Response.sealed_drop : (r.sealed g).drop = r.drop := rfl

end Sys2Proof.Machine
end

