-- ==== Sys2Proof/Laws/Exec.lean ====
section
/-! SUPPORT. What a command, a word and a step can do, said once. A command's effect is a function of the registers alone: the
registers it leaves and the response it returns; everything about ports and runs follows from that. -/

namespace Sys2Proof.Machine

/-- The registers a command leaves and the response it returns, from the registers before it. -/
def effect (i : Instr) (g : Registers) : Registers × Response :=
  match exec i { regs := g, port := [], responses := [] } with
  | .next t => (t.regs, t.responses.headD Response.blank)
  | .fault _ => (g, Response.blank)
  | .refused _ => (g, Response.blank)

/-- Every command answers with its effect and changes nothing else. -/
theorem exec_eq_after (i : Instr) (s : State) :
    exec i s = .next (s.after (effect i s.regs).1 (effect i s.regs).2) := by
  cases i <;> rfl

/-- The effect of a word: its command's, or the fault's. -/
def wordEffect (w : CmdWord) (g : Registers) : Registers × Response :=
  match decode w with
  | .command i => effect i g
  | .illegal f => ({ g with statusIll := true }, { Response.blank with fault := f.code, illSticky := true })

theorem wordEffect_command {w : CmdWord} {i : Instr} (h : decode w = .command i) (g : Registers) :
    wordEffect w g = effect i g := by simp [wordEffect, h]

theorem wordEffect_illegal {w : CmdWord} {f : FaultCode} (h : decode w = .illegal f) (g : Registers) :
    wordEffect w g =
      ({ g with statusIll := true }, { Response.blank with fault := f.code, illSticky := true }) := by
  simp [wordEffect, h]

/-- A step with a word presented answers with the word's effect. -/
theorem step_present_command (w : CmdWord) (s : State) :
    step (s.present (.command w)) = .next (s.after (wordEffect w s.regs).1 (wordEffect w s.regs).2) := by
  cases hd : decode w with
  | command i => simp only [step, State.nextEvent_present, wordEffect, hd, exec_eq_after]
  | illegal f => simp only [step, State.nextEvent_present, wordEffect, hd, State.raiseFault_eq_after]

/-- All that a step can do: idle, reset, or the effect of the word presented. -/
theorem step_cases (s : State) :
    (s.port = [] ∧ step s = .next s) ∨
    (∃ rest, s.port = .reset :: rest ∧ step s = .next { s with regs := Registers.reset, port := rest }) ∨
    (∃ w rest, s.port = .command w :: rest ∧
      step s = .next
        { regs := (wordEffect w s.regs).1, port := rest, responses := s.responses ++ [(wordEffect w s.regs).2] }) := by
  obtain ⟨g, p, o⟩ := s
  match p with
  | [] => exact .inl ⟨rfl, rfl⟩
  | .reset :: rest => exact .inr (.inl ⟨rest, rfl, rfl⟩)
  | .command w :: rest => exact .inr (.inr ⟨w, rest, rfl, step_present_command w ⟨g, rest, o⟩⟩)

/-- Issuing a word returns its effect's response and leaves its effect's registers. -/
theorem issue_eq (w : CmdWord) (s : State) :
    issue w s = ((wordEffect w s.regs).2, s.after (wordEffect w s.regs).1 (wordEffect w s.regs).2) := by
  simp [issue, step_present_command]

@[simp] theorem issueAll_nil (s : State) : issueAll [] s = ([], s) := rfl

theorem issueAll_cons (w : CmdWord) (ws : List CmdWord) (s : State) :
    issueAll (w :: ws) s = ((issue w s).1 :: (issueAll ws (issue w s).2).1, (issueAll ws (issue w s).2).2) := rfl

/-- Issuing a list and then another is issuing the two one after the other. -/
theorem issueAll_append (vs ws : List CmdWord) (s : State) :
    issueAll (vs ++ ws) s =
      ((issueAll vs s).1 ++ (issueAll ws (issueAll vs s).2).1, (issueAll ws (issueAll vs s).2).2) := by
  induction vs generalizing s with
  | nil => rfl
  | cons v vs ih => simp [issueAll_cons, ih]

end Sys2Proof.Machine
end

