-- ==== Sys2Proof/Laws/Effect.lean ====
section
/-! SUPPORT. The effect of each command, one equation each; later proofs cite these and never unfold a meaning. -/

namespace Sys2Proof.Machine

theorem effect_enc (d : Block) (g : Registers) :
    effect (.enc d) g = (g, { Response.blank with illSticky := g.statusIll, cw := hammingEncode Config.dataOrder d }) := rfl

theorem effect_dec (c : Codeword) (g : Registers) :
    effect (.dec c) g =
      (g, { Response.blank with
        illSticky := g.statusIll
        block := hammingDecode Config.dataOrder c
        corrected := correctedFlag (hammingSyndrome c)
        syndrome := hammingSyndrome c }) := rfl

/-- PKPUSH when 11 bits are held afterwards. -/
theorem effect_pkpush_emit (b : Byte) (g : Registers) (h : 3 ≤ g.pkCnt.toNat) :
    effect (.pkpush b) g =
      ({ g with
        pkCnt := BitVec.ofNat 4 (g.pkCnt.toNat + 8 - 11)
        pkAcc := (lowBits (packWindow g.pkAcc b) (g.pkCnt.toNat + 8 - 11)).setWidth 10 },
      { Response.blank with
        illSticky := g.statusIll
        blkValid := true
        blk := slice (packWindow g.pkAcc b) (g.pkCnt.toNat + 8 - 11) 11 }) := by
  have : 11 ≤ g.pkCnt.toNat + 8 := by omega
  simp only [effect, exec, execPkpush, pkpushRule, this, if_true]; rfl

/-- PKPUSH when fewer than 11 bits are held afterwards. -/
theorem effect_pkpush_keep (b : Byte) (g : Registers) (h : g.pkCnt.toNat < 3) :
    effect (.pkpush b) g =
      ({ g with pkCnt := BitVec.ofNat 4 (g.pkCnt.toNat + 8), pkAcc := slice (packWindow g.pkAcc b) 0 10 },
      { Response.blank with illSticky := g.statusIll }) := by
  have : ¬ 11 ≤ g.pkCnt.toNat + 8 := by omega
  simp only [effect, exec, execPkpush, pkpushRule, this, if_false]; rfl

/-- PKFLUSH with bits held. -/
theorem effect_pkflush_emit (g : Registers) (h : 0 < g.pkCnt.toNat) :
    effect .pkflush g =
      ({ g with pkAcc := 0, pkCnt := 0 },
      { Response.blank with
        illSticky := g.statusIll
        blkValid := true
        blk := g.pkAcc.setWidth 11 <<< (11 - g.pkCnt.toNat) }) := by
  simp only [effect, exec, execPkflush, pkflushRule, h, if_true]; rfl

/-- PKFLUSH with no bit held. -/
theorem effect_pkflush_none (g : Registers) (h : g.pkCnt.toNat = 0) :
    effect .pkflush g = ({ g with pkAcc := 0, pkCnt := 0 }, { Response.blank with illSticky := g.statusIll }) := by
  have : ¬ 0 < g.pkCnt.toNat := by omega
  simp only [effect, exec, execPkflush, pkflushRule, this, if_false]; rfl

theorem effect_upstart (n : Len) (g : Registers) :
    effect (.upstart n) g =
      ({ g with upAcc := 0, upCnt := 0, upRem := n }, { Response.blank with illSticky := g.statusIll }) := rfl

theorem effect_uppush (d : Block) (g : Registers) :
    effect (.uppush d) g =
      ({ g with
        upRem := g.upRem - BitVec.ofNat 16 (bytesEmitted ((g.upCnt.toNat + 11) / 8) g.upRem)
        upCnt := BitVec.ofNat 3 (g.upCnt.toNat + 11 - 8 * ((g.upCnt.toNat + 11) / 8))
        upAcc := (lowBits (unpackWindow g.upAcc d) (g.upCnt.toNat + 11 - 8 * ((g.upCnt.toNat + 11) / 8))).setWidth 7 },
      { Response.blank with
        illSticky := g.statusIll
        nbytes := BitVec.ofNat 2 (bytesEmitted ((g.upCnt.toNat + 11) / 8) g.upRem)
        byte0 :=
          if 1 ≤ bytesEmitted ((g.upCnt.toNat + 11) / 8) g.upRem then
            slice (unpackWindow g.upAcc d) (g.upCnt.toNat + 11 - 8) 8
          else 0
        byte1 :=
          if bytesEmitted ((g.upCnt.toNat + 11) / 8) g.upRem = 2 then
            if (g.upCnt.toNat + 11) / 8 = 2 then slice (unpackWindow g.upAcc d) (g.upCnt.toNat + 11 - 16) 8 else 0
          else 0 }) := rfl

theorem effect_inj (c : Codeword) (p : Prob) (g : Registers) :
    effect (.inj c p) g =
      ({ g with lfsr := (injectBitError lfsr16 c p g.lfsr).2 },
      { Response.blank with
        illSticky := g.statusIll
        cw := (injectBitError lfsr16 c p g.lfsr).1.cw
        flipped := (injectBitError lfsr16 c p g.lfsr).1.flipped
        pos := (injectBitError lfsr16 c p g.lfsr).1.pos }) := rfl

theorem effect_dropq (p : Prob) (g : Registers) :
    effect (.dropq p) g =
      ({ g with lfsr := (shouldDropMessage lfsr16 p g.lfsr).2 },
      { Response.blank with illSticky := g.statusIll, drop := (shouldDropMessage lfsr16 p g.lfsr).1 }) := rfl

theorem effect_seed (v : LfsrWord) (g : Registers) (h : v ≠ 0) :
    effect (.seed v) g = ({ g with lfsr := v }, { Response.blank with illSticky := g.statusIll }) := by
  simp only [effect, exec, execSeed, seedRule, h, if_false]; rfl

theorem effect_seed_zero (g : Registers) :
    effect (.seed 0) g =
      ({ g with statusIll := true },
        { Response.blank with fault := FaultCode.illegalOperand.code, illSticky := true }) := rfl

end Sys2Proof.Machine
end

