-- ==== Sys2Proof/Machine/Open.lean ====
section
/-! DEFINITION. The block over its open parameters (00_scope.md R8, 10_state.md R30): one step that takes `DATA_ORDER` and `RNG`
as the argument `Params` and `LEN_W` as the width of the length register, and several instances of it (`NUM_INSTANCES`). The
rules are those of the commands; the machine behind the host's interface is this one at the defaults
(`openStep_standard`, Laws/Open.lean). -/

namespace Sys2Proof.Machine

variable {σ : Type} {lenW : Nat}

/-- The open parameters that are not widths or counts (R8): the data order (R121, R123) and the random source, with what is the
source's own: how it takes a seed (R138) and its state after reset (R26). -/
structure Params (σ : Type) where
  dataOrder : DataOrder
  source : DrawSource σ
  load : LfsrWord → σ → σ
  start : σ

/-- The defaults of R8. -/
def Params.standard : Params LfsrWord :=
  { dataOrder := Config.dataOrder, source := lfsr16, load := lfsrLoad, start := Config.lfsrReset }

/-- What a command does to the registers and what it returns. A term of UPSTART holds 16 bits of length. -/
def commandRule (P : Params σ) (i : Instr) (g : RegistersOf σ lenW) : RegistersOf σ lenW × Response :=
  match i with
  | .enc d => encRule P.dataOrder d g
  | .dec c => decRule P.dataOrder c g
  | .pkpush b => pkpushRule b g
  | .pkflush => pkflushRule g
  | .upstart n => upstartRule (n.setWidth lenW) g
  | .uppush d => uppushRule d g
  | .inj c p => injRule P.source c p g
  | .dropq p => dropqRule P.source p g
  | .seed v => seedRule P.load v g

/-- What a word is when the length field of UPSTART follows `LEN_W`: an UPSTART with that length, or what the decoder says. -/
inductive OpenDecoded (lenW : Nat) where
  | upstart (len : BitVec lenW)
  | fixed (d : Decoded)
  deriving DecidableEq, Repr

/-- The bits of UPSTART that must be zero: those of `cmd[27:0]` above the length field. With `LEN_W` = 16 it is R73's
`zeromask`. -/
def lenZeroMask (lenW : Nat) : CmdWord := (0x0FFFFFFF#32 >>> lenW) <<< lenW

/-- The length field of UPSTART, the low `LEN_W` bits of `cmd[27:0]`; a width above 28 reads all 28 and zeros above them.
DESIGN CHOICE, log entry 9. -/
def lenField (lenW : Nat) (w : CmdWord) : BitVec lenW := (w.extractLsb' 0 28).setWidth lenW

/-- The decoder for any `LEN_W`: only UPSTART's length field depends on it (log entry 9). -/
def decodeLen (lenW : Nat) (w : CmdWord) : OpenDecoded lenW :=
  if opcodeField w = 5 then
    if w &&& lenZeroMask lenW = 0 then .upstart (lenField lenW w) else .fixed (.illegal .reservedField)
  else .fixed (decode w)

/-- The word of UPSTART for any `LEN_W` up to 28 (log entry 9). -/
def upstartWord (len : BitVec lenW) : CmdWord := 0x50000000#32 ||| (len.setWidth 28).setWidth 32

/-- What a word does to the registers and what it returns. -/
def wordRule (P : Params σ) (w : CmdWord) (g : RegistersOf σ lenW) : RegistersOf σ lenW × Response :=
  match decodeLen lenW w with
  | .upstart len => upstartRule len g
  | .fixed (.command i) => commandRule P i g
  | .fixed (.illegal f) => faultRule f g

/-- One instance over the open parameters, with its two ports (log entries 1 and 2). -/
structure OpenState (σ : Type) (lenW : Nat) where
  regs : RegistersOf σ lenW
  port : List PortEvent
  responses : List Response
  deriving DecidableEq, Repr

/-- Right after reset: nothing presented, nothing returned (R31, R210). -/
def openReset (P : Params σ) (lenW : Nat) : OpenState σ lenW :=
  { regs := RegistersOf.resetTo P.start, port := [], responses := [] }

/-- One step. It always gives a next state (log entries 3 and 4). -/
def openStep (P : Params σ) (s : OpenState σ lenW) : OpenState σ lenW :=
  match s.port with
  | [] => s
  | .reset :: rest => { s with regs := RegistersOf.resetTo P.start, port := rest }
  | .command w :: rest =>
    let a := wordRule P w s.regs
    { regs := a.1, port := rest, responses := s.responses ++ [a.2.sealed a.1] }

/-- Several instances over the same parameters, each with its own registers and source (R52): instance `k` takes one step, and
where there is no such instance nothing moves (log entry 10). -/
def openStepInstance (P : Params σ) (p : List (OpenState σ lenW)) (k : Nat) : List (OpenState σ lenW) :=
  p.modify k (openStep P)

/-- A state of the machine as a state over the open parameters. -/
def State.toOpen (s : State) : OpenState LfsrWord 16 :=
  { regs := s.regs, port := s.port, responses := s.responses }

end Sys2Proof.Machine
end

