-- ==== Sys2Proof/Laws/Open.lean ====
section
/-! SUPPORT. The step over the open parameters: at the defaults it is the machine's step, and for any parameters the few facts
that say what it does. -/

namespace Sys2Proof.Machine

variable {σ : Type} {lenW : Nat}

/-- A command's effect on the machine is its rule at the default parameters, sealed. -/
theorem effect_eq_commandRule (i : Instr) (g : Registers) :
    effect i g =
      ((commandRule Params.standard i g).1,
        (commandRule Params.standard i g).2.sealed (commandRule Params.standard i g).1) := by
  cases i with
  | upstart n => simp only [commandRule, BitVec.setWidth_eq]; rfl
  | _ => rfl

/-- With `LEN_W` = 16 the length field and its must-be-zero bits are the decoder's, so a word's rule follows the decoder. -/
theorem wordRule_standard (P : Params σ) (w : CmdWord) (g : RegistersOf σ 16) :
    wordRule P w g =
      match decode w with
      | .command i => commandRule P i g
      | .illegal f => faultRule f g := by
  by_cases h : opcodeField w = 5
  · have hm : lenZeroMask 16 = 0x0FFF0000#32 := by decide
    have hf : lenField 16 w = (immField w).setWidth 16 := by
      apply BitVec.eq_of_getLsbD_eq
      intro i hi
      have hi' : i < 16 := hi
      simp [lenField, immField, hi', show i < 28 by omega]
    by_cases hz : w &&& 0x0FFF0000#32 = 0#32
    · simp [wordRule, decodeLen, decode, ifZero, h, hm, hz, hf, commandRule]
    · simp [wordRule, decodeLen, decode, ifZero, h, hm, hz]
  · simp only [wordRule, decodeLen, h, if_false]
    cases decode w <;> rfl

/-- The machine's step is the step over the open parameters at their defaults. -/
theorem openStep_standard (s : State) : ∃ t, step s = .next t ∧ t.toOpen = openStep Params.standard s.toOpen := by
  obtain ⟨g, p, o⟩ := s
  match p with
  | [] => exact ⟨_, rfl, rfl⟩
  | .reset :: rest => exact ⟨_, rfl, rfl⟩
  | .command w :: rest =>
    refine ⟨_, step_present_command w ⟨g, rest, o⟩, ?_⟩
    have hw : wordEffect w g =
        ((wordRule Params.standard w g).1,
          (wordRule Params.standard w g).2.sealed (wordRule Params.standard w g).1) := by
      rw [wordRule_standard, wordEffect]
      cases decode w with
      | command i => exact effect_eq_commandRule i g
      | illegal f => rfl
    simp only [hw]
    rfl

/-- The state after reset is the one over the open parameters at their defaults. -/
theorem openReset_standard : State.reset.toOpen = openReset Params.standard 16 := rfl

/-- For every `LEN_W` up to 28 the word of an UPSTART is decoded to its length. -/
theorem decodeLen_upstartWord (h : lenW ≤ 28) (len : BitVec lenW) : decodeLen lenW (upstartWord len) = .upstart len := by
  have hop : opcodeField (upstartWord len) = 5 := by
    have : (upstartWord len).extractLsb' 28 4 = 5#4 := by
      apply BitVec.eq_of_getLsbD_eq
      intro i hi
      simp [upstartWord]
      interval_cases i <;> decide
    simp [opcodeField, this]
  have hz : upstartWord len &&& lenZeroMask lenW = 0 := by
    apply BitVec.eq_of_getLsbD_eq
    intro i hi
    by_cases hl : i < lenW
    · simp [lenZeroMask, hl]
    · have hd : ((0x50000000#32).getLsbD i && (0x0FFFFFFF#32).getLsbD i) = false := by
        rw [← BitVec.getLsbD_and]; simp
      simpa [upstartWord, lenZeroMask, hl, hi, BitVec.getLsbD_of_ge len i (by omega),
        show lenW + (i - lenW) = i by omega] using hd
  have hf : lenField lenW (upstartWord len) = len := by
    apply BitVec.eq_of_getLsbD_eq
    intro i hi
    have h28 : i < 28 := by omega
    have hp : (0x50000000#32).getLsbD i = false := by
      interval_cases i <;> decide
    rw [BitVec.getLsbD_eq_getElem (by omega)] at hp
    simp [lenField, upstartWord, hi, h28, hp, show i < 32 by omega]
  simp [decodeLen, hop, hz, hf]

end Sys2Proof.Machine
end

