-- ==== Sys2Proof/Laws/Operands.lean ====
section
/-! SUPPORT. What the bit-string operations give, as bits and as numbers. -/

namespace Sys2Proof.Machine

/-- Bit `i` of `v[lo+n-1 : lo]` is bit `lo + i` of `v`. -/
theorem slice_getLsbD {w : Nat} (v : BitVec w) (lo n i : Nat) :
    (slice v lo n).getLsbD i = (decide (i < n) && v.getLsbD (lo + i)) := by
  simp [slice, BitVec.getLsbD_extractLsb']

/-- A slice as a number. -/
theorem slice_toNat {w : Nat} (v : BitVec w) (lo n : Nat) : (slice v lo n).toNat = v.toNat / 2 ^ lo % 2 ^ n := by
  simp [slice, BitVec.extractLsb'_toNat, Nat.shiftRight_eq_div_pow]

/-- A value widened and shifted up, with a narrower value put below it, as a number. -/
theorem shiftLeft_or_toNat {m n : Nat} (a : BitVec m) (b : BitVec n) (w : Nat) (h : w = m + n) :
    (a.setWidth w <<< n ||| b.setWidth w).toNat = a.toNat * 2 ^ n + b.toNat := by
  subst h
  have ha : a.toNat < 2 ^ m := a.isLt
  have hb : b.toNat < 2 ^ n := b.isLt
  have hm : 2 ^ m ≤ 2 ^ (m + n) := Nat.pow_le_pow_right (by omega) (by omega)
  have hn : 2 ^ n ≤ 2 ^ (m + n) := Nat.pow_le_pow_right (by omega) (by omega)
  have hab : a.toNat * 2 ^ n < 2 ^ (m + n) := by
    rw [Nat.pow_add]; exact Nat.mul_lt_mul_of_pos_right ha (Nat.two_pow_pos n)
  rw [BitVec.toNat_or, BitVec.toNat_shiftLeft, BitVec.toNat_setWidth, BitVec.toNat_setWidth,
    Nat.mod_eq_of_lt (a := a.toNat) (by omega), Nat.mod_eq_of_lt (a := b.toNat) (by omega), Nat.shiftLeft_eq,
    Nat.mod_eq_of_lt hab, ← Nat.shiftLeft_eq, ← Nat.shiftLeft_add_eq_or_of_lt hb]

/-- The packer's window as a number. -/
theorem packWindow_toNat (acc : BitVec 10) (b : Byte) : (packWindow acc b).toNat = acc.toNat * 256 + b.toNat :=
  shiftLeft_or_toNat acc b 18 rfl

/-- The unpacker's window as a number. -/
theorem unpackWindow_toNat (acc : BitVec 7) (d : Block) : (unpackWindow acc d).toNat = acc.toNat * 2048 + d.toNat :=
  shiftLeft_or_toNat acc d 18 rfl

/-- The `k` newest bits as a number. -/
theorem lowBits_toNat {w : Nat} (v : BitVec w) (k : Nat) (h : k < w) : (lowBits v k).toNat = v.toNat % 2 ^ k := by
  have hk : 2 ^ k < 2 ^ w := Nat.pow_lt_pow_right (by omega) h
  have h1 : 1 < 2 ^ w := Nat.one_lt_two_pow (by omega)
  have hmask : ((1#w <<< k) - 1#w).toNat = 2 ^ k - 1 := by
    have hone : (1#w).toNat = 1 := by simp [Nat.mod_eq_of_lt h1]
    have hsh : (1#w <<< k).toNat = 2 ^ k := by
      rw [BitVec.toNat_shiftLeft, hone, Nat.one_shiftLeft, Nat.mod_eq_of_lt hk]
    have hle : 1#w ≤ 1#w <<< k := by
      rw [BitVec.le_def, hone, hsh]; exact Nat.one_le_two_pow
    rw [BitVec.toNat_sub_of_le hle, hone, hsh]
  rw [lowBits, BitVec.toNat_and, hmask, Nat.and_two_pow_sub_one_eq_mod]

/-- Bit `j` of a bit string, counted from the most significant, is `f j`. -/
theorem bitsBE_getLsbD (w : Nat) (f : Nat → Bool) (i : Nat) (h : i < w) :
    (bitsBE w f).getLsbD i = f (w - 1 - i) := by
  induction w generalizing f i with
  | zero => omega
  | succ w ih =>
    rw [bitsBE, BitVec.getLsbD_cons]
    by_cases hi : i = w
    · simp [hi]
    · rw [if_neg hi, ih _ _ (by omega)]
      congr 1; omega

end Sys2Proof.Machine
end

