-- ==== Sys2Proof/Laws/PerInstr.lean ====
section
/-! SUPPORT. Facts about every command as syntax, one lemma per constructor. -/

namespace Sys2Proof.Laws

/-- The word of a command matches the row of its opcode in the opcode map: no operand reaches a bit the row fixes (R62, R71). -/
def MatchesRow.Statement (i : Instr) : Prop :=
  ∃ row ∈ opcodeTable, row.opcode = i.opcode ∧ encode i &&& row.mask = row.pattern

/-- Bits that are zero above a field's width stay zero in the word that holds the field. -/
theorem and_mask_operand (w : Nat) (v : BitVec w) (p m : CmdWord) (hp : p &&& m = p)
    (hm : ∀ i, i < w → m.getLsbD i = false) : (p ||| v.setWidth 32) &&& m = p := by
  apply BitVec.eq_of_getLsbD_eq
  intro i hi
  have hpm : (p.getLsbD i && m.getLsbD i) = p.getLsbD i := by rw [← BitVec.getLsbD_and, hp]
  by_cases hw : i < w
  · have h0 := hm i hw
    simp [h0] at hpm
    simp [h0, hpm]
  · simp [BitVec.getLsbD_of_ge v i (by omega), hpm]

/-- The same for a probability field: it reaches bits 25:16 only. -/
theorem and_mask_probability (p : Prob) (q m : CmdWord) (hq : q &&& m = q)
    (hm : ∀ i, 16 ≤ i → i < 26 → m.getLsbD i = false) : (q ||| p.setWidth 32 <<< 16) &&& m = q := by
  apply BitVec.eq_of_getLsbD_eq
  intro i hi
  have hqm : (q.getLsbD i && m.getLsbD i) = q.getLsbD i := by rw [← BitVec.getLsbD_and, hq]
  by_cases hw : 16 ≤ i ∧ i < 26
  · have h0 := hm i hw.1 hw.2
    simp [h0] at hqm
    simp [h0, hqm]
  · by_cases h16 : i < 16
    · simp [BitVec.getLsbD_shiftLeft, h16, hqm]
    · simp [BitVec.getLsbD_shiftLeft, BitVec.getLsbD_of_ge p (i - 16) (by omega), hqm]

theorem MatchesRow.enc (d : Block) : MatchesRow.Statement (.enc d) :=
  ⟨⟨1, 0xFFFFF800, 0x10000000⟩, by simp [opcodeTable], rfl, and_mask_operand 11 d _ _ (by decide) (by decide)⟩

theorem MatchesRow.dec (c : Codeword) : MatchesRow.Statement (.dec c) :=
  ⟨⟨2, 0xFFFF8000, 0x20000000⟩, by simp [opcodeTable], rfl, and_mask_operand 15 c _ _ (by decide) (by decide)⟩

theorem MatchesRow.pkpush (b : Byte) : MatchesRow.Statement (.pkpush b) :=
  ⟨⟨3, 0xFFFFFF00, 0x30000000⟩, by simp [opcodeTable], rfl, and_mask_operand 8 b _ _ (by decide) (by decide)⟩

theorem MatchesRow.pkflush : MatchesRow.Statement .pkflush :=
  ⟨⟨4, 0xFFFFFFFF, 0x40000000⟩, by simp [opcodeTable], rfl, by decide⟩

theorem MatchesRow.upstart (n : Len) : MatchesRow.Statement (.upstart n) :=
  ⟨⟨5, 0xFFFF0000, 0x50000000⟩, by simp [opcodeTable], rfl, and_mask_operand 16 n _ _ (by decide) (by decide)⟩

theorem MatchesRow.uppush (d : Block) : MatchesRow.Statement (.uppush d) :=
  ⟨⟨6, 0xFFFFF800, 0x60000000⟩, by simp [opcodeTable], rfl, and_mask_operand 11 d _ _ (by decide) (by decide)⟩

theorem MatchesRow.dropq (p : Prob) : MatchesRow.Statement (.dropq p) :=
  ⟨⟨8, 0xFC00FFFF, 0x80000000⟩, by simp [opcodeTable], rfl, and_mask_probability p _ _ (by decide) (by decide)⟩

theorem MatchesRow.inj (c : Codeword) (p : Prob) : MatchesRow.Statement (.inj c p) := by
  refine ⟨⟨7, 0xFC008000, 0x70000000⟩, by simp [opcodeTable], rfl, ?_⟩
  have hc : (c.setWidth 32 : CmdWord) &&& 0xFC008000#32 = 0 := by
    have h := and_mask_operand 15 c 0 0xFC008000 (by decide) (by decide)
    simpa using h
  have hp := and_mask_probability p 0x70000000#32 0xFC008000#32 (by decide) (by decide)
  show (0x70000000#32 ||| p.setWidth 32 <<< 16 ||| c.setWidth 32) &&& 0xFC008000#32 = 0x70000000#32
  have hor : ∀ a b m : CmdWord, (a ||| b) &&& m = (a &&& m) ||| (b &&& m) := by
    intro a b m; ext i; simp [Bool.and_or_distrib_right]
  rw [hor, hc, hp]; decide

theorem MatchesRow.seed (v : LfsrWord) : MatchesRow.Statement (.seed v) :=
  ⟨⟨9, 0xFFFF0000, 0x90000000⟩, by simp [opcodeTable], rfl, and_mask_operand 16 v _ _ (by decide) (by decide)⟩

end Sys2Proof.Laws
end

