-- ==== Sys2Proof/Laws/Random.lean ====
section
/-! SUPPORT. What the draws and the channel rules give, case by case; later proofs cite these and never unfold a draw. -/

namespace Sys2Proof.Machine

@[simp] theorem lfsrStepN_zero (s : LfsrWord) : lfsrStepN s 0 = s := rfl
theorem lfsrStepN_succ (s : LfsrWord) (n : Nat) : lfsrStepN s (n + 1) = lfsrStepN (lfsrStep s) n := rfl

/-- Steps add up. -/
theorem lfsrStepN_add (s : LfsrWord) (m n : Nat) : lfsrStepN s (m + n) = lfsrStepN (lfsrStepN s m) n := by
  induction m generalizing s with
  | zero => rw [Nat.zero_add, lfsrStepN_zero]
  | succ m ih => rw [Nat.succ_add, lfsrStepN_succ, lfsrStepN_succ, ih]

/-- A round leaves the state its steps lead to, and its number is that state's top bits. -/
theorem drawRound_eq (bits : Nat) (s : LfsrWord) :
    drawRound bits s = ((slice (lfsrStepN s bits) (16 - bits) bits).toNat, lfsrStepN s bits) := rfl

/-- A round accepted ends the draw. -/
theorem drawUntil_accept {bits limit : Nat} (more : Nat) {s : LfsrWord} (h : (drawRound bits s).1 < limit) :
    drawUntil bits limit more s = drawRound bits s := by
  cases more with
  | zero => rfl
  | succ more => rw [drawUntil, if_pos h]

/-- A round rejected is followed by the next, from the state it left. -/
theorem drawUntil_reject {bits limit : Nat} (more : Nat) {s : LfsrWord} (h : ¬ (drawRound bits s).1 < limit) :
    drawUntil bits limit (more + 1) s = drawUntil bits limit more (drawRound bits s).2 := by
  rw [drawUntil, if_neg h]

variable {σ : Type} (src : DrawSource σ) (cw : Codeword) (p : Prob) (r : σ)

/-- The injection when the first draw is below the probability. -/
theorem injectBitError_of_lt (h : (src.draw1000 r).1 < p.toNat) :
    injectBitError src cw p r =
      (⟨cw ^^^ (1#15 <<< (src.draw15 (src.draw1000 r).2).1), true,
        BitVec.ofNat 4 (src.draw15 (src.draw1000 r).2).1⟩, (src.draw15 (src.draw1000 r).2).2) := by
  simp [injectBitError, eventFires, h]

/-- The injection when it is not: one draw, the codeword as it is. -/
theorem injectBitError_of_not_lt (h : ¬ (src.draw1000 r).1 < p.toNat) :
    injectBitError src cw p r = (⟨cw, false, 0⟩, (src.draw1000 r).2) := by
  simp [injectBitError, eventFires, h]

/-- The drop decision: one draw, compared with the threshold. -/
theorem shouldDropMessage_eq :
    shouldDropMessage src p r = (decide ((src.draw1000 r).1 < p.toNat), (src.draw1000 r).2) := rfl

end Sys2Proof.Machine
end

