-- ==== Sys2Proof/Laws/Run.lean ====
section
/-! SUPPORT. Runs, and lists of words issued one after another. -/

namespace Sys2Proof.Machine

/-- A run goes on from the next state of its first step. -/
theorem run_succ_of_next {s t : State} (k : Nat) (h : step s = .next t) :
    Host.Core.run Sys2Proof.core (k + 1) s = Host.Core.run Sys2Proof.core k t := by
  simp [Host.Core.run, Sys2Proof.core, h]

/-- The responses to a list of words, and the registers it leaves, depend on the registers before it alone. -/
theorem issueAll_congr_regs (ws : List CmdWord) {s t : State} (h : s.regs = t.regs) :
    (issueAll ws s).1 = (issueAll ws t).1 ∧ (issueAll ws s).2.regs = (issueAll ws t).2.regs := by
  induction ws generalizing s t with
  | nil => exact ⟨rfl, h⟩
  | cons w ws ih =>
    have hregs : (issue w s).2.regs = (issue w t).2.regs := by simp [issue_eq, h]
    have hresp : (issue w s).1 = (issue w t).1 := by simp [issue_eq, h]
    have hrest := ih hregs
    exact ⟨by rw [issueAll_cons, issueAll_cons, hresp, hrest.1], hrest.2⟩

/-- Issuing words leaves the port as it was and appends one response to each word. -/
theorem issueAll_port_responses (ws : List CmdWord) (s : State) :
    (issueAll ws s).2.port = s.port ∧ (issueAll ws s).2.responses = s.responses ++ (issueAll ws s).1 ∧
      (issueAll ws s).1.length = ws.length := by
  induction ws generalizing s with
  | nil => simp
  | cons w ws ih =>
    obtain ⟨hp, hr, hl⟩ := ih (issue w s).2
    rw [issueAll_cons]
    exact ⟨by rw [hp, issue_eq]; rfl, by rw [hr, issue_eq]; simp, by simp [hl]⟩

end Sys2Proof.Machine
end

