-- ==== Sys2Proof/Tests/Slice0.lean ====
section
/-! SUPPORT. Tests of the model on the spec's own vectors (95_test_vectors.md) and examples, and one witness for the hypotheses
of every statement that has some. Every expected value is the spec's. -/

namespace Sys2Proof.Tests

open Sys2Proof Sys2Proof.Machine

/-- A state with the registers given, nothing presented and nothing returned. -/
def at' (g : Registers) : State := { regs := g, port := [], responses := [] }

/-- The packer's registers, the rest as after reset. -/
def packer (acc : BitVec 10) (cnt : BitVec 4) : Registers := { Registers.reset with pkAcc := acc, pkCnt := cnt }

/-- The unpacker's registers, the rest as after reset. -/
def unpacker (acc : BitVec 7) (cnt : BitVec 3) (rem : Len) : Registers :=
  { Registers.reset with upAcc := acc, upCnt := cnt, upRem := rem }

/-- The source's register, the rest as after reset. -/
def source (v : LfsrWord) : Registers := { Registers.reset with lfsr := v }

/-- A draw source that always answers the two numbers given. -/
def fixedSource (d e : Nat) : DrawSource Unit := ⟨fun r => (d, r), fun r => (e, r)⟩

/-! ## Well-formedness and decoding -/

/-- The one ill-formed term: SEED with operand 0 (R70, R71). -/
theorem test_wellFormed_refuses_seed_zero : (Instr.seed 0).wellFormed = false := by decide
theorem test_wellFormed_accepts_seed_one : (Instr.seed 1).wellFormed = true := by decide

/-- The formats of R63 to R69, bit by bit. -/
theorem test_decode_enc : decode 0b0001_0000_0000_0000_0000_0111_1111_1000#32 = .command (.enc 0x7F8) := by decide
theorem test_decode_dec : decode 0b0010_0000_0000_0000_0110_0100_0001_0000#32 = .command (.dec 0x6410) := by decide
theorem test_decode_pkpush : decode 0b0011_0000_0000_0000_0000_0000_1000_0001#32 = .command (.pkpush 0x81) := by decide
theorem test_decode_pkflush : decode 0b0100_0000_0000_0000_0000_0000_0000_0000#32 = .command .pkflush := by decide
theorem test_decode_upstart : decode 0b0101_0000_0000_0000_1000_0000_0000_0101#32 = .command (.upstart 0x8005) := by decide
theorem test_decode_uppush : decode 0b0110_0000_0000_0000_0000_0100_0010_0001#32 = .command (.uppush 0x421) := by decide
theorem test_decode_inj : decode 0b0111_0010_0000_0001_0100_0000_0000_0010#32 = .command (.inj 0x4002 0x201) := by decide
theorem test_decode_dropq : decode 0b1000_0010_0000_0001_0000_0000_0000_0000#32 = .command (.dropq 0x201) := by decide
theorem test_decode_seed : decode 0b1001_0000_0000_0000_1010_1100_1110_0001#32 = .command (.seed 0xACE1) := by decide

/-- V80 to V83: illegal opcodes. -/
theorem test_decode_illegal_opcode :
    ([0x00000000, 0xA0000000, 0xFFFFFFFF, 0x00000001] : List CmdWord).map decode =
      List.replicate 4 (.illegal .illegalOpcode) := by decide

/-- V84 to V91 and V93: a must-be-zero bit is 1. -/
theorem test_decode_reserved_field :
    ([0x10000800, 0x20008000, 0x30000100, 0x40000001, 0x50010000, 0x70008000, 0x74000000, 0x80000001, 0x90010000] :
      List CmdWord).map decode = List.replicate 9 (.illegal .reservedField) := by decide

/-- V92: SEED 0, and V95: the nearest legal word. -/
theorem test_decode_illegal_operand :
    decode 0x90000000 = .illegal .illegalOperand ∧ decode 0x9000FFFF = .command (.seed 0xFFFF) := by decide

/-- R79's example words: the encoder's side of V43 to V55. -/
theorem test_encode_inj_seed :
    encode (.inj 0x7FFF 1000) = 0x73E87FFF#32 ∧ encode (.dropq 803) = 0x83230000#32 ∧
      encode (.seed 1) = 0x90000001#32 := by decide

/-- The host's reading of a table word, and a number that is no word. -/
theorem test_decodeTableWord :
    decodeTableWord 32 0x30000048 = some (.pkpush 0x48) ∧ decodeTableWord 40 0x0130000048 = none := by decide

/-! ## One step of each command -/

/-- V28 and V24. -/
theorem test_enc_vectors :
    (issue 0x10000242#32 State.reset).1.cw = 0x2410 ∧ (issue 0x100007FF#32 State.reset).1.cw = 0x7FFF := by decide

/-- V64: position 4 corrected. -/
theorem test_dec_corrects :
    (issue 0x20002418#32 State.reset).1 =
      { Response.blank with block := 0x242, corrected := true, syndrome := 4 } := by decide

/-- V74: two errors, a wrong block. -/
theorem test_dec_two_errors :
    (issue 0x20001535#32 State.reset).1 =
      { Response.blank with block := 0x357, corrected := true, syndrome := 14 } := by decide

/-- R102's example. -/
theorem test_pkpush_emits :
    (issue 0x30000045#32 (at' (packer 0x048 8))).1 = { Response.blank with blkValid := true, blk := 0x242 } ∧
      (issue 0x30000045#32 (at' (packer 0x048 8))).2.regs = packer 0x005 5 := by decide

/-- V11, the fourth byte: nothing is emitted and 10 bits are held. -/
theorem test_pkpush_keeps :
    (issue 0x30000004#32 (at' (packer 0x003 2))).1 = Response.blank ∧
      (issue 0x30000004#32 (at' (packer 0x003 2))).2.regs = packer 0x304 10 := by decide

/-- R104's example. -/
theorem test_pkflush_pads :
    (issue 0x40000000#32 (at' (packer 0x04F 7))).1 = { Response.blank with blkValid := true, blk := 0x4F0 } ∧
      (issue 0x40000000#32 (at' (packer 0x04F 7))).2.regs = Registers.reset := by decide

/-- V11, the closing PKFLUSH: no ninth block. -/
theorem test_pkflush_empty : (issue 0x40000000#32 (at' (packer 0 0))).1 = Response.blank := by decide

/-- R105's example, from an unpacker that holds bits. -/
theorem test_upstart_loads :
    (issue 0x50000005#32 (at' (unpacker 0x13 6 9))).2.regs = unpacker 0 0 5 ∧
      (issue 0x50000005#32 (at' (unpacker 0x13 6 9))).1 = Response.blank := by decide

/-- R106's example. -/
theorem test_uppush_two_bytes :
    (issue 0x60000098#32 (at' (unpacker 0x13 6 3))).1 =
        { Response.blank with nbytes := 2, byte0 := 0x4C, byte1 := 0x4C } ∧
      (issue 0x60000098#32 (at' (unpacker 0x13 6 3))).2.regs = unpacker 0 1 1 := by decide

/-- V17: two whole bytes, but one is left of the length. -/
theorem test_uppush_short_length :
    (issue 0x60000098#32 (at' (unpacker 0x13 6 1))).1 = { Response.blank with nbytes := 1, byte0 := 0x4C } := by decide

/-- V52: a flip. -/
theorem test_inj_flips :
    (issue 0x73E82410#32 (at' (source 0xC8AB))).1 = { Response.blank with cw := 0x2418, flipped := true, pos := 3 } ∧
      (issue 0x73E82410#32 (at' (source 0xC8AB))).2.regs = source 0x3747 := by decide

/-- V44: the draw is not below the probability. -/
theorem test_inj_keeps :
    (issue 0x73220000#32 State.reset).1 = Response.blank ∧
      (issue 0x73220000#32 State.reset).2.regs = source 0xC8AB := by decide

/-- V51 and V50. -/
theorem test_dropq_threshold :
    (issue 0x83230000#32 State.reset).1.drop = true ∧ (issue 0x83220000#32 State.reset).1.drop = false := by decide

/-- V53. -/
theorem test_seed_loads : (issue 0x90000001#32 State.reset).2.regs = source 1 := by decide

/-- V92: SEED 0 faults and leaves the source alone. -/
theorem test_seed_zero_faults :
    (issue 0x90000000#32 State.reset).1 = { Response.blank with fault := 3, illSticky := true } ∧
      (issue 0x90000000#32 State.reset).2.regs = { Registers.reset with statusIll := true } := by decide

/-- After V80: a legal command still works and shows the sticky bit. -/
theorem test_sticky_bit_shows :
    (issue 0x10000001#32 (at' { Registers.reset with statusIll := true })).1 =
      { Response.blank with illSticky := true, cw := 0x0007 } := by decide

/-- R210: a reset event. -/
theorem test_reset_event :
    ∃ t, step { State.reset with regs := { packer 0x3FF 10 with statusIll := true }, port := [.reset] } = .next t ∧
      t = State.reset := ⟨_, rfl, by decide⟩

/-- The word placed by `withFetchWord` is the one the next step runs. -/
theorem test_withFetchWord :
    ∃ t, step (State.reset.withFetchWord 32 0x30000048) = .next t ∧ t.regs = packer 0x048 8 := ⟨_, rfl, by decide⟩

/-! ## The random source, the code, the host's functions, the assembler -/

/-- V40: the first step. -/
theorem test_lfsr_step : lfsrStep 0xACE1 = 0x5670 := by decide

/-- V41: two rounds rejected, and V42: four. -/
theorem test_draws_reject :
    lfsrDraw1000 0x8357 = (476, 0x773F) ∧ lfsrDraw15 0x29F2 = (0, 0x0FFF) := by decide

/-- R123: the descending order is the ascending one on the reversed block; `0x001` lies at position 15. -/
theorem test_descending_order : (hammingEncode .descending 0x001).getLsbD 14 = true := by decide

/-- Another data order and another source: R123's placement of block bit 0, which makes it V23's codeword. -/
def otherParams : Params Unit :=
  { dataOrder := .descending, source := fixedSource 999 14, load := fun _ r => r, start := () }

theorem test_open_descending_enc :
    ((openStep otherParams { openReset otherParams 16 with port := [.command 0x10000001#32] }).responses.map
      Response.cw) = [0x408B] := by decide

/-- R132 with draws 999 and 14: bit 14 is flipped. -/
theorem test_open_other_source_inj :
    ((openStep otherParams { openReset otherParams 16 with port := [.command 0x73E80000#32] }).responses.map
      Response.cw) = [0x4000] := by decide

/-- V88's length needs a wider register: refused with `LEN_W` = 16, loaded with `LEN_W` = 17. -/
theorem test_open_length_width :
    ((openStep otherParams { openReset otherParams 16 with port := [.command 0x50010000#32] }).responses.map
      Response.fault) = [2] ∧
    (openStep otherParams { openReset otherParams 17 with port := [.command 0x50010000#32] }).regs.upRem = 65536 := by
  decide

/-- V8. -/
theorem test_pack_three_bytes : pack [0x12, 0x34, 0x56] = [0x091, 0x515, 0x400] := by decide

/-- V17. -/
theorem test_unpack_prefix : unpack [0x242, 0x153, 0x098, 0x4F0] 3 = [0x48, 0x45, 0x4C] := by decide

/-- R171: a first difference and a length mismatch. -/
theorem test_validate :
    validate [1, 2] [1, 2] = false ∧ validate [1, 2] [1, 3] = true ∧ validate [1, 2] [1] = true := by decide

/-- R79 and R80: one line each. -/
theorem test_assemble_line :
    assembleLine ['I', 'N', 'J', ' ', '0', 'x', '2', '4', '1', '0', ',', ' ', '1', '0', '0', '0', ' ', ';', 'x'] =
      some [0x73E82410#32] := by decide
theorem test_assemble_pkmsg :
    assembleLine ['P', 'K', 'M', 'S', 'G', ' ', quoteChar, 'H', 'i', quoteChar] =
      some [0x30000048#32, 0x30000069#32, 0x40000000#32] := by decide

/-! ## Witnesses: values that meet the hypotheses of the statements -/

theorem witness_DecodeOfEncodeIsTheCommand :
    (Instr.inj 0x7FFF 1023).wellFormed = true ∧ (Instr.seed 1).wellFormed = true ∧
      (Instr.seed 0xFFFF).wellFormed = true := by decide

theorem witness_EncodeOfDecodeIsTheWord :
    decode 0x73FF7FFF#32 = .command (.inj 0x7FFF 1023) ∧ decode 0x90000001#32 = .command (.seed 1) := by decide

theorem witness_WordSelectsTheCommandOfItsMapRow :
    (9, 0xFFFF0000#32, 0x90000000#32) ∈ Claim.opcodeMap ∧ (0x9000FFFF#32 &&& 0xFFFF0000#32) = 0x90000000#32 ∧
      immField 0x9000FFFF#32 ≠ 0 := by decide

/-- Each clause at the ends of its range: opcodes 0, 10, 15; 1 and 9 with a reserved bit; SEED 0; 1 and 9 legal. -/
theorem witness_IllegalWordReportsItsFirstFailingTest :
    opcodeField 0x00000001#32 = 0 ∧ 10 ≤ opcodeField 0xA0000000#32 ∧ 10 ≤ opcodeField 0xFFFFFFFF#32 ∧
    (opcodeField 0x10000800#32 = 1 ∧ (0x10000800#32 &&& Claim.zeroMask (opcodeField 0x10000800#32)) ≠ 0) ∧
    (opcodeField 0x90010000#32 = 9 ∧ (0x90010000#32 &&& Claim.zeroMask (opcodeField 0x90010000#32)) ≠ 0) ∧
    (opcodeField 0x90000000#32 = 9 ∧ (0x90000000#32 &&& Claim.zeroMask 9) = 0 ∧ immField 0x90000000#32 = 0) ∧
    (opcodeField 0x100007FF#32 = 1 ∧ (0x100007FF#32 &&& Claim.zeroMask (opcodeField 0x100007FF#32)) = 0) ∧
    (opcodeField 0x90000001#32 = 9 ∧ (0x90000001#32 &&& Claim.zeroMask (opcodeField 0x90000001#32)) = 0 ∧
      immField 0x90000001#32 ≠ 0) := by decide

/-- A state that is about to take a word; the word is a command, or one of each fault. -/
theorem witness_StepRunsTheDecodedCommand :
    (State.reset.present (.command 0x30000048#32)).port = [.command 0x30000048#32] ∧
      decode 0x30000048#32 = .command (.pkpush 0x48) := by decide

theorem witness_IllegalWordFaultsAndChangesNothingElse :
    (State.reset.present (.command 0x90000000#32)).port = [.command 0x90000000#32] ∧
      decode 0x90000000#32 = .illegal .illegalOperand := by decide

theorem witness_ResetEventLoadsEveryRegister :
    ((at' (packer 0x3FF 10)).present .reset).port = [.reset] := by decide

/-- Both kinds of word, and the reset event. -/
theorem witness_StatusIllIsStickyAndInEveryResponse :
    (State.reset.present (.command 0x10000001#32)).port = [.command 0x10000001#32] ∧ Claim.legal 0x10000001#32 ∧
      ¬ Claim.legal 0x00000000#32 ∧ (State.reset.present .reset).port = [.reset] := by
  refine ⟨by decide, ⟨.enc 1, by decide⟩, ?_, by decide⟩
  rintro ⟨i, h⟩
  have hd : decode 0x00000000#32 = .illegal .illegalOpcode := by decide
  rw [hd] at h
  exact Decoded.noConfusion h

theorem witness_FaultFieldHoldsTheCodeOfTheWord :
    (State.reset.present (.command 0x90010000#32)).port = [.command 0x90010000#32] := by decide

theorem witness_IdleBlockChangesNothing : State.reset.port = [] := by decide

/-- A state that meets the invariants with bits held in both units, and its step. -/
theorem witness_EveryStepKeepsTheRegisterInvariants :
    ({ packer 0x3FF 10 with upAcc := 0x7F, upCnt := 7 } : Registers).Ok ∧
      ∃ t, step ((at' { packer 0x3FF 10 with upAcc := 0x7F, upCnt := 7 }).present (.command 0x300000FF#32)) =
        .next t := ⟨by decide, _, rfl⟩

theorem witness_CommandsWriteOnlyTheirOwnRegisters :
    (Instr.seed 0xACE1).wellFormed = true ∧ (Instr.inj 0 0).wellFormed = true := by decide

/-- Each way of being disjoint, with both words commands. -/
theorem witness_WordsOfDisjointUnitsCommute :
    Claim.unitOfWord 0x10000001#32 = none ∧ Claim.unitOfWord 0x20000001#32 = none ∧
      Claim.unitOfWord 0x30000048#32 ≠ Claim.unitOfWord 0x83E80000#32 ∧
      Claim.legal 0x30000048#32 ∧ Claim.legal 0x83E80000#32 :=
  ⟨by decide, by decide, by decide, ⟨.pkpush 0x48, by decide⟩, ⟨.dropq 1000, by decide⟩⟩

theorem witness_SetStatusIllChangesNoLaterCommand :
    (issueAll [0x10000001#32] (at' { Registers.reset with statusIll := true })).1 =
        [{ Response.blank with illSticky := true, cw := 7 }] ∧
      (State.reset.present .reset).port = [.reset] := by decide

theorem witness_EncPlacesDataAndParityBits :
    Claim.dataBits.getD 0 0 = 2 ∧ Claim.dataBits.getD 10 0 = 14 ∧ 10 < 11 := by decide

theorem witness_SyndromeIsZeroExactlyOnCodewords :
    hammingSyndrome 0x2410 = 0 ∧ hammingEncode .ascending 0x242 = 0x2410 := by decide

theorem witness_DistinctCodewordsDifferInThreeBits :
    (0x000 : Block) ≠ 0x001 ∧ Claim.ones (hammingEncode .ascending 0 ^^^ hammingEncode .ascending 1) = 3 := by decide

theorem witness_DecCorrectsAndExtracts :
    Claim.syndromeOf 0x2410 = 0 ∧ Claim.syndromeOf 0x2411 = 1 ∧ Claim.syndromeOf 0x6410 = 15 := by decide

/-- The first and the last position. -/
theorem witness_SyndromeHasItsEqualForms :
    (hammingSyndrome (0x2410 ^^^ 1#15 <<< 0)).toNat = 1 ∧ (hammingSyndrome (0x2410 ^^^ 1#15 <<< 14)).toNat = 15 := by
  decide

theorem witness_DecRecoversEveryBlockUnderOneError : 0 < 15 ∧ 14 < 15 := by decide

theorem witness_EitherDataOrderKeepsTheGuarantee :
    hammingSyndrome (hammingEncode .descending 0x123 ^^^ 1#15 <<< 14) = 15 ∧ 14 < 15 ∧ 10 < 11 := by decide

theorem witness_DecReturnsTheNearestCodewordsBlock :
    Claim.ones (hammingEncode .ascending 0x242 ^^^ 0x2418) = 1 := by decide

/-- The two ends of the range, and neighbours. -/
theorem witness_TwoErrorsAlwaysGiveAWrongBlock :
    (1 ≤ 1 ∧ 15 ≤ 15 ∧ 1 ≠ 15) ∧ 1 ^^^ 15 = 14 ∧ 14 ^^^ 15 = 1 := by decide

/-- An unnoticed triple and a noticed one. -/
theorem witness_ThreeErrorsNeverGiveTheOriginal :
    (1 ^^^ 2 ^^^ 3 = 0 ∧ 1 ≠ 2 ∧ 1 ≠ 3 ∧ 2 ≠ 3) ∧ (13 ^^^ 14 ^^^ 15 ≠ 0 ∧ 13 ≠ 14 ∧ 13 ≠ 15 ∧ 14 ≠ 15) := by decide

/-- Both clauses where they meet, at counts 2 and 3, and the last count. -/
theorem witness_PkpushAppendsTheByteAndEmitsABlock :
    ((packer 0x003 2).pkCnt.toNat ≤ 10 ∧ (packer 0x003 2).pkCnt.toNat + 8 < 11) ∧
    ((packer 0x002 3).pkCnt.toNat ≤ 10 ∧ 11 ≤ (packer 0x002 3).pkCnt.toNat + 8) ∧
    ((packer 0x3FF 10).pkCnt.toNat ≤ 10 ∧ 11 ≤ (packer 0x3FF 10).pkCnt.toNat + 8) := by decide

theorem witness_PkflushPadsTheLastBlockAndEmpties :
    (packer 0 0).pkCnt.toNat = 0 ∧ 0 < (packer 1 1).pkCnt.toNat ∧ (packer 0x3FF 10).pkCnt.toNat ≤ 10 := by decide

/-- No byte, one byte by the length, one byte by the count, two bytes. -/
theorem witness_UppushEmitsWholeBytesWithinTheLength :
    min ((unpacker 0 7 0).upCnt.toNat + 11) 0 = 0 ∧
    min (((unpacker 0 7 1).upCnt.toNat + 11) / 8) (unpacker 0 7 1).upRem.toNat = 1 ∧
    min (((unpacker 0 4 9).upCnt.toNat + 11) / 8) (unpacker 0 4 9).upRem.toNat = 1 ∧
    min (((unpacker 0 5 2).upCnt.toNat + 11) / 8) (unpacker 0 5 2).upRem.toNat = 2 := by decide

theorem witness_PackerEmpty : State.reset.regs.PackerEmpty := by decide

/-- V1 and V7: the first and the last index of a block and of a bit, in the data and in the padding. -/
theorem witness_PackAndUnpackSliceTheBitString :
    pack [] = [] ∧ pack [0xFF, 0xFF] = [0x7FF, 0x7C0] ∧ 1 < (pack [0xFF, 0xFF]).length ∧
      11 * 1 + 4 < 8 * 2 ∧ ¬ 11 * 1 + 5 < 8 * 2 ∧ 0 < (unpack [0x7FF, 0x7C0] 2).length := by decide

theorem witness_LfsrStepShiftsInTheTapSum : (0xACE1 : LfsrWord) ≠ 0 ∧ lfsrStep 0xACE1 ≠ 0 := by decide

/-- The first and the last count, and a non-zero state. -/
theorem witness_LfsrHasTheFullPeriod : (1 : LfsrWord) ≠ 0 ∧ 0 < 1 ∧ 1 < 65535 ∧ 65534 < 65535 := by decide

/-- V41: a state whose first two rounds are rejected. -/
theorem witness_Draw1000IsTheFirstAcceptedRound :
    1000 ≤ ((lfsrStepN 0x8357 (10 * 1)).extractLsb' 6 10).toNat ∧
      1000 ≤ ((lfsrStepN 0x8357 (10 * 2)).extractLsb' 6 10).toNat ∧
      ((lfsrStepN 0x8357 (10 * 3)).extractLsb' 6 10).toNat = 476 := by decide

/-- V42: the state that needs five rounds. -/
theorem witness_Draw15IsTheFirstAcceptedRound :
    15 ≤ ((lfsrStepN 0x29F2 (4 * 4)).extractLsb' 12 4).toNat ∧
      ((lfsrStepN 0x29F2 (4 * 5)).extractLsb' 12 4).toNat = 0 := by decide

/-- Two different sources that give the same first and second answers. -/
theorem witness_ChannelDependsOnlyOnInRangeDraws :
    ((fixedSource 802 1).draw1000 ()).1 = (lfsr16.draw1000 0xACE1).1 ∧
      ((fixedSource 802 1).draw15 ((fixedSource 802 1).draw1000 ()).2).1 =
        (lfsr16.draw15 (lfsr16.draw1000 0xACE1).2).1 := by decide

/-- V45 and V44: the draw of the reset state, 802, against 803 and 802. -/
theorem witness_InjFlipsTheDrawnBit :
    (lfsrDraw1000 State.reset.regs.lfsr).1 < (803 : Prob).toNat ∧
      ¬ (lfsrDraw1000 State.reset.regs.lfsr).1 < (802 : Prob).toNat := by decide

/-- A source in range, at the greatest answers. -/
theorem witness_sourceInRange : (fixedSource 999 14).InRange := by
  intro r; show 999 < 1000 ∧ 14 < 15; decide

theorem witness_OneInjectionFlipsAtMostOneBit :
    (fixedSource 999 14).InRange ∧ (injectBitError (fixedSource 999 14) 0 1000 ()).1.flipped = true ∧
      (injectBitError (fixedSource 999 14) 0 999 ()).1.flipped = false := ⟨witness_sourceInRange, by decide, by decide⟩

theorem witness_ProbabilityBoundaryHoldsForEverySource :
    (fixedSource 999 14).InRange ∧ (0 : Prob) = 0 ∧ 1000 ≤ (1000 : Prob).toNat ∧ 1000 ≤ (1023 : Prob).toNat :=
  ⟨witness_sourceInRange, by decide, by decide, by decide⟩

/-- Two states that differ in the source alone, and the least seed. -/
theorem witness_SeedLoadsTheSourceReproducibly :
    (1 : LfsrWord) ≠ 0 ∧ source 1 ≠ source 2 ∧
      (at' (source 1)).regs = { (at' (source 2)).regs with lfsr := (at' (source 1)).regs.lfsr } := by decide

theorem witness_ValidatorIsFalseExactlyOnEqualSequences :
    validate ([] : List Byte) [] = false ∧ validate [7] [7] = false := by decide

/-- The longest payload the host accepts and the shortest it refuses. -/
theorem witness_PipelineCommandsComputeProcessPayload :
    State.reset.regs.PackerEmpty ∧ (List.replicate 65535 (0 : Byte)).length ≤ 65535 ∧
      65535 < (List.replicate 65536 (0 : Byte)).length :=
  ⟨by decide, Nat.le_of_eq List.length_replicate, by rw [List.length_replicate]; decide⟩

theorem witness_MessageIsRecoveredForEverySource :
    (fixedSource 999 14).InRange ∧ (shouldDropMessage (fixedSource 999 14) 999 ()).1 = false ∧
      (shouldDropMessage (fixedSource 999 14) 1000 ()).1 = true := ⟨witness_sourceInRange, by decide, by decide⟩

/-- P5 and P4: a dropped message, and the empty one that is not. -/
theorem witness_DroppedMessageTransformsNothing :
    ((processPayload [] 1000 0 State.reset).map PipelineRun.outcome = some .dropped ∧
      (lfsrDraw1000 State.reset.regs.lfsr).1 < (1000 : Prob).toNat) ∧
    ((processPayload [] 0 0 State.reset).map PipelineRun.outcome = some (.completed [] false) ∧
      ¬ (lfsrDraw1000 State.reset.regs.lfsr).1 < (0 : Prob).toNat) := by decide

/-- P4: the end state. -/
theorem witness_CompletedMessageLeavesTheUnitsClean :
    State.reset.regs.PackerEmpty ∧
      (processPayload [] 0 0 State.reset).map (fun r => r.after.regs) = some (source 0xC8AB) := by decide

theorem witness_InstancesShareNothing :
    (Platform.reset 2)[1]? = some State.reset ∧ (0 : Nat) ≠ 1 ∧ ∃ t, step State.reset = .next t :=
  ⟨by decide, by decide, _, rfl⟩

/-- Every bound at its least value beyond the range. -/
theorem witness_AssemblerGivesTheWordsOfTheTable :
    (Instr.seed 1).wellFormed = true ∧ assembleCommand .enc [.number 2048] = none ∧
      assembleCommand .inj [.number 32768, .number 0] = none ∧ assembleCommand .inj [.number 0, .number 1024] = none ∧
      assembleCommand .pkpush [.number 256] = none ∧ assembleCommand .upstart [.number 65536] = none := by decide

end Sys2Proof.Tests
end

section
/-! The decoder, as the proofs use it: a decoded command is well formed, and a word that is no command has a fault code. -/

namespace Sys2Proof.Machine

/-- `ifZero` gives a command exactly when the must-be-zero bits are 0, and then the one it was given (R73). -/
theorem ifZero_eq_command_iff {w zeromask : CmdWord} {i j : Instr} :
    ifZero w zeromask i = .command j ↔ w &&& zeromask = 0 ∧ i = j := by
  unfold ifZero
  split
  case isTrue hz => exact ⟨fun h => ⟨hz, Decoded.command.inj h⟩, fun ⟨_, hi⟩ => congrArg _ hi⟩
  case isFalse hz => exact ⟨(nomatch ·), fun ⟨h, _⟩ => absurd h hz⟩

/-- Every word that decodes decodes to a well-formed command: the decoder itself refuses SEED 0 (R72). -/
theorem wellFormed_of_decode {w : CmdWord} {i : Instr} (h : decode w = .command i) : i.wellFormed = true := by
  unfold decode at h
  split at h
  case h_9 =>
    split at h
    · cases h
    · split at h
      · cases h
      · next hne => cases h; simpa [Instr.wellFormed] using hne
  case h_10 => cases h
  all_goals
    obtain ⟨-, rfl⟩ := ifZero_eq_command_iff.mp h
    rfl

/-- A word that is no command is illegal with some fault code (R73). -/
theorem not_legal_iff {w : CmdWord} : ¬ Claim.legal w ↔ ∃ f, decode w = .illegal f := by
  unfold Claim.legal
  cases decode w <;> simp

end Sys2Proof.Machine
end

section
/-! The reset values (R31), and `STATUS.ILL` with `rsp.ill_sticky` (R27): what a command, a word and a step do to them. -/

namespace Sys2Proof.Machine

/-- A command's response carries `STATUS.ILL` as the command leaves it. -/
theorem effect_illSticky (i : Instr) (g : Registers) : (effect i g).2.illSticky = (effect i g).1.statusIll := by
  rw [effect_eq_commandRule, Response.sealed_illSticky]

/-- A well-formed command leaves `STATUS.ILL` as it was. -/
theorem effect_statusIll {i : Instr} (h : i.wellFormed = true) (g : Registers) :
    (effect i g).1.statusIll = g.statusIll := by
  cases i with
  | enc d => rw [effect_enc]
  | dec c => rw [effect_dec]
  | pkpush b =>
    rcases Nat.lt_or_ge g.pkCnt.toNat 3 with hlt | hge
    · rw [effect_pkpush_keep b g hlt]
    · rw [effect_pkpush_emit b g hge]
  | pkflush =>
    rcases Nat.eq_zero_or_pos g.pkCnt.toNat with hzero | hpos
    · rw [effect_pkflush_none g hzero]
    · rw [effect_pkflush_emit g hpos]
  | upstart n => rw [effect_upstart]
  | uppush d => rw [effect_uppush]
  | inj c p => rw [effect_inj]
  | dropq p => rw [effect_dropq]
  | seed v =>
    have hv : v ≠ 0 := by simpa [Instr.wellFormed] using h
    rw [effect_seed v g hv]

/-- Every word's response carries `STATUS.ILL` as the word leaves it. -/
theorem wordEffect_illSticky (w : CmdWord) (g : Registers) :
    (wordEffect w g).2.illSticky = (wordEffect w g).1.statusIll := by
  cases hd : decode w with
  | command i => rw [wordEffect_command hd, effect_illSticky]
  | illegal f => rw [wordEffect_illegal hd]

theorem wordEffect_statusIll_of_legal {w : CmdWord} (h : Claim.legal w) (g : Registers) :
    (wordEffect w g).1.statusIll = g.statusIll := by
  obtain ⟨i, hd⟩ := h
  rw [wordEffect_command hd, effect_statusIll (wellFormed_of_decode hd)]

theorem wordEffect_statusIll_of_not_legal {w : CmdWord} (h : ¬ Claim.legal w) (g : Registers) :
    (wordEffect w g).1.statusIll = true := by
  obtain ⟨f, hd⟩ := not_legal_iff.mp h
  rw [wordEffect_illegal hd]

/-- The step of a state whose next event is a word. -/
theorem step_of_port_command {s : State} {w : CmdWord} {rest : List PortEvent} (h : s.port = .command w :: rest) :
    step s = .next
      { regs := (wordEffect w s.regs).1, port := rest, responses := s.responses ++ [(wordEffect w s.regs).2] } := by
  rcases step_cases s with ⟨hp, -⟩ | ⟨rest', hp, -⟩ | ⟨w', rest', hp, hs⟩ <;> cases h.symm.trans hp
  exact hs

/-- The step of a state whose next event is the reset event. -/
theorem step_of_port_reset {s : State} {rest : List PortEvent} (h : s.port = .reset :: rest) :
    step s = .next { s with regs := Registers.reset, port := rest } := by
  rcases step_cases s with ⟨hp, -⟩ | ⟨rest', hp, hs⟩ | ⟨w, rest', hp, -⟩ <;> cases h.symm.trans hp
  exact hs

/-- Settles O9: every register of the reset state is the spec's literal. -/
theorem resetStateHoldsTheResetValues : Obligations.ResetStateHoldsTheResetValues :=
  ⟨rfl, rfl, rfl, rfl, rfl, rfl, rfl⟩

/-- Settles O12, from the effect of a word on `STATUS.ILL` and the two kinds of step. -/
theorem statusIllIsStickyAndInEveryResponse : Obligations.StatusIllIsStickyAndInEveryResponse := by
  refine ⟨rfl, fun s w rest h => ?_, fun s rest h => ?_⟩
  · exact ⟨_, _, step_of_port_command h, wordEffect_illSticky w s.regs,
      fun hl => wordEffect_statusIll_of_legal hl s.regs, fun hn => wordEffect_statusIll_of_not_legal hn s.regs⟩
  · exact ⟨_, step_of_port_reset h, rfl⟩

end Sys2Proof.Machine
end

section
/-! Several instances (R52): a step of one is a change of its own place in the list, so the library's facts on `List.modify`
say that it leaves the other places alone and that changes of two places commute. -/

namespace Sys2Proof.Machine

/-- The state that one step leaves; every step leaves one (`step_eq_next_stepped`). -/
def State.stepped (s : State) : State :=
  match step s with
  | .next t => t
  | .fault _ => s
  | .refused _ => s

theorem stepped_of_step_eq_next {s t : State} (h : step s = .next t) : s.stepped = t := by
  simp only [State.stepped, h]

/-- No step faults or is refused. -/
theorem step_eq_next_stepped (s : State) : step s = .next s.stepped := by
  have hnext : ∃ t, step s = .next t := by
    rcases step_cases s with ⟨-, hs⟩ | ⟨_, -, hs⟩ | ⟨_, _, -, hs⟩
    · exact ⟨_, hs⟩
    · exact ⟨_, hs⟩
    · exact ⟨_, hs⟩
  obtain ⟨t, ht⟩ := hnext
  rw [stepped_of_step_eq_next ht, ht]

/-- A step of instance `k` is a step at place `k` of the list and nothing else. -/
theorem stepInstance_eq_modify (p : Platform) (k : Nat) : p.stepInstance k = p.modify k State.stepped := by
  rw [List.modify_eq_set_getElem?]
  cases hk : p[k]? with
  | none => simp [Platform.stepInstance, hk]
  | some s => simp [Platform.stepInstance, hk, step_eq_next_stepped s]

/-- Settles O59: every step of an instance is `List.modify` at its place. -/
theorem instancesShareNothing : Obligations.InstancesShareNothing := by
  refine ⟨fun p k s t hk hs => ?_, fun p j k hjk => ?_, fun p j k hjk => ?_⟩
  · rw [stepInstance_eq_modify, List.getElem?_modify_eq, hk, Option.map_eq_map, Option.map_some,
      stepped_of_step_eq_next hs]
  · rw [stepInstance_eq_modify, List.getElem?_modify_ne _ _ hjk.symm]
  · simp only [stepInstance_eq_modify, List.modify_modify_ne _ _ _ hjk]

end Sys2Proof.Machine
end

section
/-! The decoder's tests in their order (R72, R73, R196), and the rows of the opcode map (R71): a word matches the row of
opcode `n` exactly when its opcode is `n` and its must-be-zero bits are 0. -/

namespace Sys2Proof.Machine

/-- An opcode of no row is refused before any other test (R72). -/
theorem decode_of_opcode_unassigned {w : CmdWord} (h : opcodeField w = 0 ∨ 10 ≤ opcodeField w) :
    decode w = .illegal .illegalOpcode := by
  unfold decode
  split
  case h_10 => rfl
  all_goals omega

/-- A word with the opcode of a row meets the other two tests of R72 in their order, and past both it is a command of that
opcode. -/
theorem decode_of_opcode_assigned {w : CmdWord} (h1 : 1 ≤ opcodeField w) (h9 : opcodeField w ≤ 9) :
    ∃ i : Instr, i.opcode = opcodeField w ∧
      decode w =
        if w &&& Claim.zeroMask (opcodeField w) ≠ 0 then .illegal .reservedField
        else if opcodeField w = 9 ∧ immField w = 0 then .illegal .illegalOperand
        else .command i := by
  interval_cases h : opcodeField w
  · exact ⟨.enc (blockField w), rfl, by simp [decode, h, ifZero, Claim.zeroMask]⟩
  · exact ⟨.dec (codewordField w), rfl, by simp [decode, h, ifZero, Claim.zeroMask]⟩
  · exact ⟨.pkpush (byteField w), rfl, by simp [decode, h, ifZero, Claim.zeroMask]⟩
  · exact ⟨.pkflush, rfl, by simp [decode, h, ifZero, Claim.zeroMask]⟩
  · exact ⟨.upstart (immField w), rfl, by simp [decode, h, ifZero, Claim.zeroMask]⟩
  · exact ⟨.uppush (blockField w), rfl, by simp [decode, h, ifZero, Claim.zeroMask]⟩
  · exact ⟨.inj (codewordField w) (probField w), rfl, by simp [decode, h, ifZero, Claim.zeroMask]⟩
  · exact ⟨.dropq (probField w), rfl, by simp [decode, h, ifZero, Claim.zeroMask]⟩
  · exact ⟨.seed (immField w), rfl, by simp [decode, h, Claim.zeroMask]⟩

theorem decode_of_reserved_bit {w : CmdWord} (h1 : 1 ≤ opcodeField w) (h9 : opcodeField w ≤ 9)
    (hz : w &&& Claim.zeroMask (opcodeField w) ≠ 0) : decode w = .illegal .reservedField := by
  obtain ⟨i, -, hd⟩ := decode_of_opcode_assigned h1 h9
  rw [hd, if_pos hz]

theorem decode_of_seed_zero {w : CmdWord} (hop : opcodeField w = 9) (hz : w &&& Claim.zeroMask 9 = 0)
    (himm : immField w = 0) : decode w = .illegal .illegalOperand := by
  obtain ⟨i, -, hd⟩ := decode_of_opcode_assigned (w := w) (by omega) (by omega)
  rw [hd, hop, if_neg (not_not.mpr hz), if_pos ⟨rfl, himm⟩]

/-- The words of the commands of opcode `n`: those that fail no test of R72. -/
theorem decodes_to_opcode_iff {w : CmdWord} {n : Nat} :
    (∃ i, decode w = .command i ∧ i.opcode = n) ↔
      (1 ≤ n ∧ n ≤ 9) ∧ (opcodeField w = n ∧ w &&& Claim.zeroMask n = 0) ∧ (n = 9 → immField w ≠ 0) := by
  by_cases hop : 1 ≤ opcodeField w ∧ opcodeField w ≤ 9
  case neg =>
    have hd := decode_of_opcode_unassigned (w := w) (by omega)
    constructor
    · rintro ⟨i, hi, -⟩
      cases hd.symm.trans hi
    · rintro ⟨hn, ⟨rfl, -⟩, -⟩
      exact absurd hn hop
  case pos =>
    obtain ⟨h1, h9⟩ := hop
    obtain ⟨i, hi, hd⟩ := decode_of_opcode_assigned h1 h9
    constructor
    · rintro ⟨j, hj, rfl⟩
      rw [hj] at hd
      split_ifs at hd with hz hs
      cases hd
      rw [hi]
      exact ⟨⟨h1, h9⟩, ⟨rfl, not_not.mp hz⟩, fun hseed h0 => hs ⟨hseed, h0⟩⟩
    · rintro ⟨-, ⟨rfl, hz⟩, hs⟩
      exact ⟨i, by rw [hd, if_neg (not_not.mpr hz), if_neg fun ⟨hseed, h0⟩ => hs hseed h0], hi⟩

/-- The row of opcode `n`: the mask covers the opcode and every must-be-zero bit (R71), the match is the opcode alone. -/
def mapRow (n : Nat) : Nat × CmdWord × CmdWord := (n, 0xF0000000#32 ||| Claim.zeroMask n, BitVec.ofNat 32 n <<< 28)

theorem opcodeMap_eq_map_mapRow : Claim.opcodeMap = (List.range' 1 9).map mapRow := by decide

theorem mem_opcodeMap_iff {row : Nat × CmdWord × CmdWord} :
    row ∈ Claim.opcodeMap ↔ ∃ n, (1 ≤ n ∧ n ≤ 9) ∧ mapRow n = row := by
  simp only [opcodeMap_eq_map_mapRow, List.mem_map, List.mem_range'_1, Nat.lt_succ_iff, Nat.reduceAdd]

/-- A test of the bits of `o ||| z` against a value within `o`, taken apart where `o` and `z` share no bit. -/
theorem and_or_eq_iff {w o z p : CmdWord} (hoz : o &&& z = 0) (hp : p &&& o = p) :
    w &&& (o ||| z) = p ↔ w &&& o = p ∧ w &&& z = 0 := by
  constructor
  · intro h
    have hkeep : (o ||| z) &&& o = o := by ext i; cases ho : o[i] <;> simp [ho]
    have ho : w &&& o = p := by rw [← hp, ← h, BitVec.and_assoc, hkeep]
    refine ⟨ho, ?_⟩
    calc w &&& z = w &&& (o ||| z) &&& z := by ext i; cases hz : z[i] <;> simp [hz]
      _ = w &&& (o &&& z) := by rw [h, ← ho, BitVec.and_assoc]
      _ = 0 := by rw [hoz]; exact BitVec.and_zero
  · rintro ⟨ho, hz⟩
    rw [BitVec.and_or_distrib_left, ho, hz]
    exact BitVec.or_zero

/-- The opcode alone, in its place `cmd[31:28]` (R61). -/
theorem and_opcode_bits (w : CmdWord) : w &&& 0xF0000000#32 = BitVec.ofNat 32 (opcodeField w) <<< 28 := by
  have hmask : ∀ i < 32, (0xF0000000#32).getLsbD i = decide (28 ≤ i) := by decide
  rw [opcodeField, BitVec.ofNat_toNat]
  apply BitVec.eq_of_getLsbD_eq
  intro i hi
  rw [BitVec.getLsbD_and, hmask i hi]
  by_cases hlow : i < 28
  · simp [hlow, Nat.not_le.mpr hlow]
  · simp [hlow, hi, show 28 ≤ i by omega, show i - 28 < 4 by omega]

theorem and_opcode_bits_eq_iff {w : CmdWord} {n : Nat} (hn : n < 16) :
    w &&& 0xF0000000#32 = BitVec.ofNat 32 n <<< 28 ↔ opcodeField w = n := by
  constructor
  · intro h
    have hand : opcodeField (w &&& 0xF0000000#32) = opcodeField w := by
      rw [opcodeField, BitVec.extractLsb'_and]
      exact congrArg BitVec.toNat (BitVec.and_allOnes)
    rw [← hand, h]
    interval_cases n <;> rfl
  · rintro rfl
    exact and_opcode_bits w

/-- A word matches the row of `n` exactly when its opcode is `n` and its must-be-zero bits are 0 (R71, R73). -/
theorem matches_mapRow_iff {w : CmdWord} {n : Nat} (hn : 1 ≤ n ∧ n ≤ 9) :
    w &&& (mapRow n).2.1 = (mapRow n).2.2 ↔ opcodeField w = n ∧ w &&& Claim.zeroMask n = 0 := by
  obtain ⟨h1, h9⟩ := hn
  have hdisjoint : 0xF0000000#32 &&& Claim.zeroMask n = 0 := by
    interval_cases n <;> decide
  have hwithin : BitVec.ofNat 32 n <<< 28 &&& 0xF0000000#32 = BitVec.ofNat 32 n <<< 28 := by
    interval_cases n <;> decide
  rw [mapRow, and_or_eq_iff hdisjoint hwithin, and_opcode_bits_eq_iff (by omega)]

/-- Settles O3: both sides say that the opcode is `n`, its must-be-zero bits are 0 and SEED's operand is not; two rows that
match one word have its opcode. -/
theorem wordSelectsTheCommandOfItsMapRow : Obligations.WordSelectsTheCommandOfItsMapRow := by
  refine ⟨fun w n => ?_, fun w a ha b hb hma hmb => ?_⟩
  · rw [decodes_to_opcode_iff]
    constructor
    · rintro ⟨hn, hm, hs⟩
      exact ⟨mapRow n, mem_opcodeMap_iff.mpr ⟨n, hn, rfl⟩, rfl, (matches_mapRow_iff hn).mpr hm, hs⟩
    · rintro ⟨row, hrow, rfl, hm, hs⟩
      obtain ⟨n, hn, rfl⟩ := mem_opcodeMap_iff.mp hrow
      exact ⟨hn, (matches_mapRow_iff hn).mp hm, hs⟩
  · obtain ⟨m, hm, rfl⟩ := mem_opcodeMap_iff.mp ha
    obtain ⟨n, hn, rfl⟩ := mem_opcodeMap_iff.mp hb
    obtain ⟨hopm, -⟩ := (matches_mapRow_iff hm).mp hma
    obtain ⟨hopn, -⟩ := (matches_mapRow_iff hn).mp hmb
    rw [← hopm, ← hopn]

/-- Settles O4, one clause for each test of R72 and one for the words that fail none. -/
theorem illegalWordReportsItsFirstFailingTest : Obligations.IllegalWordReportsItsFirstFailingTest := by
  refine ⟨fun w => decode_of_opcode_unassigned, fun w => decode_of_reserved_bit, fun w => decode_of_seed_zero,
    fun w h1 h9 hz hs => ?_, decode_of_opcode_unassigned (by decide), decode_of_opcode_unassigned (by decide),
    decode_of_opcode_unassigned (by decide), decode_of_reserved_bit (by decide) (by decide) (by decide)⟩
  obtain ⟨i, hi, -⟩ := decodes_to_opcode_iff.mpr ⟨⟨h1, h9⟩, ⟨rfl, hz⟩, hs⟩
  exact ⟨i, hi⟩

end Sys2Proof.Machine
end

section
/-! The four commands of the packer and the unpacker (R102, R104, R105, R106): the equation of each command's effect,
read as numbers. -/

namespace Sys2Proof.Machine

/-- A command answers with its effect. -/
theorem answers_of_effect {i : Instr} {s : State} {g : Registers} {r : Response} (h : effect i s.regs = (g, r)) :
    Answers i s g r := by
  rw [Answers, exec_eq_after, h]

/-- The `k` newest bits, kept in a register of `n` bits that has room for them, as a number. -/
theorem lowBits_setWidth_toNat {w n k : Nat} (v : BitVec w) (hw : k < w) (hn : k ≤ n) :
    ((lowBits v k).setWidth n).toNat = v.toNat % 2 ^ k := by
  have hfit : v.toNat % 2 ^ k < 2 ^ n :=
    (Nat.mod_lt _ (Nat.two_pow_pos k)).trans_le (Nat.pow_le_pow_right (by omega) hn)
  rw [BitVec.toNat_setWidth, lowBits_toNat v k hw, Nat.mod_eq_of_lt hfit]

/-- Settles O32: with 3 bits or more held the command emits, with fewer it only keeps. -/
theorem pkpushAppendsTheByteAndEmitsABlock : Obligations.PkpushAppendsTheByteAndEmitsABlock := by
  intro byte s hcnt t c
  rcases Nat.lt_or_ge s.regs.pkCnt.toNat 3 with hlt | hge
  · have hc : ¬ 11 ≤ c := by omega
    rw [decide_eq_false hc]
    refine ⟨_, _, _, answers_of_effect (effect_pkpush_keep byte s.regs hlt), fun h => absurd h hc,
      fun _ => ⟨rfl, ?_, ?_⟩⟩
    · rw [BitVec.toNat_ofNat, Nat.mod_eq_of_lt (by omega)]
    · rw [slice_toNat, packWindow_toNat, Nat.pow_zero, Nat.div_one]
  · have hc : 11 ≤ c := by omega
    rw [decide_eq_true hc]
    refine ⟨_, _, _, answers_of_effect (effect_pkpush_emit byte s.regs hge), fun _ => ⟨?_, ?_, ?_⟩,
      fun h => absurd hc (Nat.not_le.mpr h)⟩
    · rw [slice_toNat, packWindow_toNat]
    · rw [BitVec.toNat_ofNat, Nat.mod_eq_of_lt (by omega)]
    · rw [lowBits_setWidth_toNat _ (by omega) (by omega), packWindow_toNat]

/-- Settles O33: with bits held the command emits them shifted to the high end, with none it emits nothing. -/
theorem pkflushPadsTheLastBlockAndEmpties : Obligations.PkflushPadsTheLastBlockAndEmpties := by
  intro s _
  rcases Nat.eq_zero_or_pos s.regs.pkCnt.toNat with hzero | hpos
  · rw [decide_eq_false (Nat.not_lt.mpr hzero.le)]
    exact ⟨_, answers_of_effect (effect_pkflush_none s.regs hzero), fun h => absurd hzero h.ne', fun _ => rfl⟩
  · rw [decide_eq_true hpos]
    refine ⟨_, answers_of_effect (effect_pkflush_emit s.regs hpos), fun _ => ?_, fun h => absurd h hpos.ne'⟩
    rw [BitVec.toNat_shiftLeft, BitVec.toNat_setWidth_of_le (by decide), Nat.shiftLeft_eq]

/-- Settles O34: it is the equation of the command's effect. -/
theorem upstartEmptiesAndLoadsTheLength : Obligations.UpstartEmptiesAndLoadsTheLength :=
  fun len s => answers_of_effect (effect_upstart len s.regs)

/-- Counting off the bytes emitted never borrows: no more are emitted than `UP_REM` allows. -/
theorem sub_bytesEmitted_toNat {lenW : Nat} (k : Nat) (rem : BitVec lenW) :
    (rem - BitVec.ofNat lenW (bytesEmitted k rem)).toNat = rem.toNat - bytesEmitted k rem := by
  have hle : bytesEmitted k rem ≤ rem.toNat := Nat.min_le_right k rem.toNat
  have hm : (BitVec.ofNat lenW (bytesEmitted k rem)).toNat = bytesEmitted k rem := by
    rw [BitVec.toNat_ofNat, Nat.mod_eq_of_lt (hle.trans_lt rem.isLt)]
  rw [BitVec.toNat_sub_of_le (by rwa [BitVec.le_def, hm]), hm]

/-- Settles O35: the effect's equation field by field; with `UP_CNT` below 8 at most two bytes are available. -/
theorem uppushEmitsWholeBytesWithinTheLength : Obligations.UppushEmitsWholeBytesWithinTheLength := by
  intro data11 s t c k m
  have hcnt : s.regs.upCnt.toNat < 8 := s.regs.upCnt.isLt
  have hmk : m ≤ k := Nat.min_le_left k s.regs.upRem.toNat
  have hrest : c - 8 * k = c % 8 := by omega
  have hbytes : bytesEmitted k s.regs.upRem = m := rfl
  refine ⟨_, _, _, _, _, _, answers_of_effect (effect_uppush data11 s.regs), ?_, ?_, ?_, ?_, fun h => ?_, fun h => ?_,
    fun h => ?_, fun h => ?_⟩
  · rw [BitVec.toNat_ofNat, hbytes]; omega
  · exact sub_bytesEmitted_toNat k s.regs.upRem
  · rw [hrest, BitVec.toNat_ofNat]; omega
  · rw [hrest, lowBits_setWidth_toNat _ (by omega) (by omega), unpackWindow_toNat]
  · rw [hbytes, if_pos h, slice_toNat, unpackWindow_toNat]
  · rw [hbytes, if_neg (by omega)]
  · rw [hbytes, if_pos h, if_pos (by omega), slice_toNat, unpackWindow_toNat]
  · rw [hbytes, if_neg (by omega)]

end Sys2Proof.Machine
end

section
/-! The bit strings of a payload and of a block sequence (R42, R44, R100, R101): the bits of `pack` and `unpack`, and a
payload's bit string as the binary digits of its number. -/

namespace Sys2Proof.Machine

/-- A list made by a rule for each index, read at an index in its range. -/
theorem getD_map_range {α : Type} (f : Nat → α) (d : α) {m n : Nat} (h : m < n) :
    ((List.range n).map f).getD m d = f m := by
  rw [List.getD_eq_getElem _ _ (by simpa using h), List.getElem_map, List.getElem_range]

@[simp] theorem pack_length (B : List Byte) : (pack B).length = blockCount B.length := by simp [pack]

@[simp] theorem unpack_length (K : List Block) (len : Nat) : (unpack K len).length = min len (11 * K.length / 8) := by
  simp [unpack]

/-- Block `m` holds the bits `11m` to `11m + 10` of the payload's bit string, the earliest highest (R100). -/
theorem pack_getD_getLsbD {B : List Byte} {m i : Nat} (hm : m < (pack B).length) (hi : i < 11) :
    ((pack B).getD m 0).getLsbD i = payloadBit B (11 * m + (10 - i)) := by
  rw [pack_length] at hm
  rw [pack, getD_map_range _ _ hm, bitsBE_getLsbD _ _ _ hi]

/-- Byte `i` holds the bits `8i` to `8i + 7` of the blocks' bit string, the earliest highest (R101). -/
theorem unpack_getD_getLsbD {K : List Block} {len n i : Nat} (hn : n < (unpack K len).length) (hi : i < 8) :
    ((unpack K len).getD n 0).getLsbD i = blockBit K (8 * n + (7 - i)) := by
  rw [unpack_length] at hn
  rw [unpack, getD_map_range _ _ hn, bitsBE_getLsbD _ _ _ hi]

/-- Past the payload's end its bit string is 0: the padding (R100). -/
theorem payloadBit_of_le {B : List Byte} {t : Nat} (h : 8 * B.length ≤ t) : payloadBit B t = false := by
  rw [payloadBit, List.getD_eq_default _ _ (by omega)]
  exact BitVec.getLsbD_zero

/-- A payload as one number, its first byte the most significant. -/
def payloadNumber (B : List Byte) : Nat := B.foldl (fun v b => v * 256 + b.toNat) 0

theorem payloadNumber_append_singleton (B : List Byte) (b : Byte) :
    payloadNumber (B ++ [b]) = 2 ^ 8 * payloadNumber B + b.toNat := by
  simp [payloadNumber, Nat.mul_comm]

/-- The payload's bit string is the payload's number in binary, the most significant digit first. -/
theorem payloadBit_eq_testBit {B : List Byte} {t : Nat} (h : t < 8 * B.length) :
    payloadBit B t = (payloadNumber B).testBit (8 * B.length - 1 - t) := by
  induction B using List.reverseRecOn with
  | nil => simp at h
  | append_singleton B b ih =>
    rw [List.length_append, List.length_singleton] at h ⊢
    rw [payloadNumber_append_singleton, Nat.testBit_two_pow_mul_add _ b.isLt]
    rcases Nat.lt_or_ge t (8 * B.length) with hB | hb
    · have hinit : payloadBit (B ++ [b]) t = payloadBit B t := by
        rw [payloadBit, List.getD_append _ _ _ _ (by omega), payloadBit]
      rw [if_neg (by omega), hinit, ih hB]
      congr 1; omega
    · have hlast : (B ++ [b]).getD (t / 8) 0 = b := by
        rw [List.getD_append_right _ _ _ _ (by omega), show t / 8 - B.length = 0 by omega, List.getD_cons_zero]
      rw [if_pos (by omega), payloadBit, hlast, BitVec.testBit_toNat]
      congr 1; omega

/-- The payload's bit string with `p` zeros after it is its number shifted up by `p`. -/
theorem payloadBit_eq_testBit_shifted {B : List Byte} {p t : Nat} (h : t < 8 * B.length + p) :
    payloadBit B t = (payloadNumber B * 2 ^ p).testBit (8 * B.length + p - 1 - t) := by
  rw [Nat.testBit_mul_two_pow]
  rcases Nat.lt_or_ge t (8 * B.length) with hdata | hpad
  · rw [decide_eq_true (by omega), Bool.true_and, payloadBit_eq_testBit hdata]
    congr 1; omega
  · rw [decide_eq_false (by omega), Bool.false_and, payloadBit_of_le hpad]

/-- The blocks of `pack` are the 11-bit digits of the payload's number shifted up by the padding (R100). -/
theorem pack_getD_toNat {B : List Byte} {m : Nat} (hm : m < (pack B).length) :
    ((pack B).getD m 0).toNat =
      payloadNumber B * 2 ^ (11 * (pack B).length - 8 * B.length) / 2 ^ (11 * ((pack B).length - 1 - m)) % 2 ^ 11 := by
  have hroom : 8 * B.length ≤ 11 * (pack B).length := by rw [pack_length, blockCount]; omega
  refine Nat.eq_of_testBit_eq fun i => ?_
  rw [BitVec.testBit_toNat, Nat.testBit_mod_two_pow, Nat.testBit_div_two_pow]
  rcases Nat.lt_or_ge i 11 with hi | hi
  · rw [pack_getD_getLsbD hm hi, decide_eq_true hi, Bool.true_and,
      payloadBit_eq_testBit_shifted (p := 11 * (pack B).length - 8 * B.length) (by omega)]
    congr 1; omega
  · rw [BitVec.getLsbD_of_ge _ _ hi, decide_eq_false (by omega), Bool.false_and]

/-- Settles O38: the bits of `pack` and `unpack`, and `pack`'s blocks as digits. -/
theorem packAndUnpackSliceTheBitString : Obligations.PackAndUnpackSliceTheBitString := by
  refine ⟨fun B => ⟨pack_length B, ?_, fun m j hm hj => ?_, fun m hm => pack_getD_toNat hm⟩,
    fun K len => ⟨unpack_length K len, fun i j hi hj => ?_⟩⟩
  · rintro rfl; rfl
  · rw [pack_getD_getLsbD hm (by omega), show 10 - (10 - j) = j by omega]
    split
    case isTrue hdata => rfl
    case isFalse hpad => exact payloadBit_of_le (by omega)
  · rw [unpack_getD_getLsbD hi (by omega), show 7 - (7 - j) = j by omega, blockBit]

end Sys2Proof.Machine
end

section
/-! The encoder (R120 to R122): where the data bits and the four parity bits of a codeword stand, and each parity as an
exclusive-OR of block bits. Position p is bit p - 1, so the parity position `2^k` is bit `2^k - 1`. -/

namespace Sys2Proof.Machine

/-- Block bit `i` is laid on the (i+1)-th smallest data position (R121). -/
theorem placeData_getLsbD_dataBits {i : Nat} (hi : i < 11) (d : Block) :
    (placeData d).getLsbD (Claim.dataBits.getD i 0) = d.getLsbD i := by
  interval_cases i <;> simp [placeData, slice_getLsbD, Claim.dataBits, -BitVec.getLsbD_eq_getElem]

/-- The parity positions are left 0 by the placement of the data bits. -/
theorem placeData_getLsbD_parity {k : Nat} (hk : k < 4) (d : Block) : (placeData d).getLsbD (2 ^ k - 1) = false := by
  interval_cases k <;> simp [placeData]

/-- The parity bit at position `2^k` is the parity there, and 0 at every other bit. -/
theorem parityBit_getLsbD {k : Nat} (hk : k < 4) (cw : Codeword) (i : Nat) :
    (parityBit cw k).getLsbD i = (decide (i = 2 ^ k - 1) && parityOf cw k) := by
  have hone : (1#15 <<< (2 ^ k - 1)).getLsbD i = decide (i = 2 ^ k - 1) := by
    have hlt : 2 ^ k - 1 < 15 := by interval_cases k <;> decide
    rw [← BitVec.twoPow_eq, BitVec.getLsbD_twoPow, decide_eq_true hlt, Bool.true_and, decide_eq_decide]
    exact eq_comm
  cases hp : parityOf cw k with
  | false => simp [parityBit, hp]
  | true => simp [parityBit, hp, hone]

/-- A codeword has the placed block's bit wherever no parity position is (R121). -/
theorem hammingEncode_getLsbD_of_ne {i : Nat} (hi : ∀ k < 4, i ≠ 2 ^ k - 1) (o : DataOrder) (d : Block) :
    (hammingEncode o d).getLsbD i = (placeData (orderBlock o d)).getLsbD i := by
  have hzero : ∀ k < 4, (parityBit (placeData (orderBlock o d)) k).getLsbD i = false := fun k hk => by
    rw [parityBit_getLsbD hk, decide_eq_false (hi k hk), Bool.false_and]
  simp [hammingEncode, hzero]

/-- A codeword has the parity of the placed block at each parity position (R122): the four parity positions differ, so each
parity bit is alone at its own. -/
theorem hammingEncode_getLsbD_parity {k : Nat} (hk : k < 4) (o : DataOrder) (d : Block) :
    (hammingEncode o d).getLsbD (2 ^ k - 1) = parityOf (placeData (orderBlock o d)) k := by
  simp only [hammingEncode, BitVec.getLsbD_or, placeData_getLsbD_parity hk, parityBit_getLsbD, Nat.reduceLT]
  interval_cases k <;> simp

/-- No data position is a parity position. -/
theorem dataBits_ne_parity : ∀ i < 11, ∀ k < 4, Claim.dataBits.getD i 0 ≠ 2 ^ k - 1 := by decide

/-- A codeword has bit `i` of the block, in the block's order, at the (i+1)-th smallest data position (R121, R123). -/
theorem hammingEncode_getLsbD_dataBits {i : Nat} (hi : i < 11) (o : DataOrder) (d : Block) :
    (hammingEncode o d).getLsbD (Claim.dataBits.getD i 0) = (orderBlock o d).getLsbD i := by
  rw [hammingEncode_getLsbD_of_ne (dataBits_ne_parity i hi), placeData_getLsbD_dataBits hi]

/-- The exclusive-OR of the block bits of a list. -/
def xorBits (d : Block) (bits : List Nat) : Bool := bits.foldl (fun b i => b ^^ d.getLsbD i) false

/-- The exclusive-OR over data positions of a placed block is the one over the block bits laid there. -/
theorem xorAt_placeData {bits : List Nat} (h : ∀ i ∈ bits, i < 11) (d : Block) :
    xorAt (placeData d) (bits.map fun i => Claim.dataBits.getD i 0 + 1) = xorBits d bits := by
  rw [xorAt, xorBits, List.foldl_map]
  refine List.foldl_ext _ _ _ fun b i hi => ?_
  rw [atPos, Nat.add_sub_cancel, placeData_getLsbD_dataBits (h i hi)]

/-- The block bits that the parity bit at position `2^k` covers: the last column of R122's table. -/
def coveredBits : Nat → List Nat
  | 0 => [0, 1, 3, 4, 6, 8, 10]
  | 1 => [0, 2, 3, 5, 6, 9, 10]
  | 2 => [1, 2, 3, 7, 8, 9, 10]
  | 3 => [4, 5, 6, 7, 8, 9, 10]
  | _ => []

/-- The data positions a parity bit covers are those of its block bits: R122's two columns agree. -/
theorem covered_positions_eq_map_coveredBits :
    ∀ k < 4, (positionsWith k).filter (fun p => p ≠ 2 ^ k) =
      (coveredBits k).map fun i => Claim.dataBits.getD i 0 + 1 := by decide

theorem coveredBits_lt : ∀ k < 4, ∀ i ∈ coveredBits k, i < 11 := by decide

/-- Each parity of a placed block is the exclusive-OR of the block bits it covers (R122). -/
theorem parityOf_placeData {k : Nat} (hk : k < 4) (d : Block) :
    parityOf (placeData d) k = xorBits d (coveredBits k) := by
  rw [parityOf, covered_positions_eq_map_coveredBits k hk, xorAt_placeData (coveredBits_lt k hk)]

/-- The parity bits of a codeword, in either data order, over the bits of the block in that order (R122, R123). -/
theorem hammingEncode_getLsbD_parity_eq_xorBits {k : Nat} (hk : k < 4) (o : DataOrder) (d : Block) :
    (hammingEncode o d).getLsbD (2 ^ k - 1) = xorBits (orderBlock o d) (coveredBits k) := by
  rw [hammingEncode_getLsbD_parity hk, parityOf_placeData hk]

/-- Settles O20: the command's effect sets `cw` alone, to a codeword whose data bits and parity bits are those of R121 and
R122's table. -/
theorem encPlacesDataAndParityBits : Obligations.EncPlacesDataAndParityBits := by
  intro d s
  have hparity : ∀ k < 4, (hammingEncode Config.dataOrder d).getLsbD (2 ^ k - 1) = xorBits d (coveredBits k) :=
    fun k hk => hammingEncode_getLsbD_parity_eq_xorBits hk Config.dataOrder d
  refine ⟨hammingEncode Config.dataOrder d, answers_of_effect (effect_enc d s.regs),
    fun i hi => hammingEncode_getLsbD_dataBits hi Config.dataOrder d, ?_, ?_, ?_, ?_⟩
  · simpa [xorBits, coveredBits] using hparity 0 (by decide)
  · simpa [xorBits, coveredBits] using hparity 1 (by decide)
  · simpa [xorBits, coveredBits] using hparity 2 (by decide)
  · simpa [xorBits, coveredBits] using hparity 3 (by decide)

end Sys2Proof.Machine
end

section
/-! The bits that `LFSR16` shifts out (R134): one stream with a linear recurrence, of which each state is a window of 16. A draw
that R135 or R136 rejects fixes bits of it, and too many rejections in a row contradict the recurrence. -/

namespace Sys2Proof.Machine

/-- A step moves every bit down one place (R134). -/
theorem lfsrStep_getLsbD_of_lt {i : Nat} (hi : i < 15) (s : LfsrWord) :
    (lfsrStep s).getLsbD i = s.getLsbD (i + 1) := by
  simp [lfsrStep, hi, Nat.add_comm, -BitVec.getLsbD_eq_getElem]

/-- A step shifts in the sum of the taps at the top (R134). -/
theorem lfsrStep_getLsbD_top (s : LfsrWord) :
    (lfsrStep s).getLsbD 15 = (s.getLsbD 0 ^^ s.getLsbD 2 ^^ s.getLsbD 3 ^^ s.getLsbD 5) := by
  simp [lfsrStep, -BitVec.getLsbD_eq_getElem]

/-- The last of `n + 1` steps, apart from the others. -/
theorem lfsrStepN_succ_last (s : LfsrWord) (n : Nat) : lfsrStepN s (n + 1) = lfsrStep (lfsrStepN s n) :=
  lfsrStepN_add s n 1

/-- Bit `t` of the stream: the bit that step `t` shifts out. -/
def lfsrBit (s : LfsrWord) (t : Nat) : Bool := (lfsrStepN s t).getLsbD 0

/-- The state after `n` steps is the 16 bits of the stream that begin at bit `n`. -/
theorem lfsrStepN_getLsbD {i : Nat} (hi : i < 16) (s : LfsrWord) (n : Nat) :
    (lfsrStepN s n).getLsbD i = lfsrBit s (n + i) := by
  induction i generalizing n with
  | zero => rfl
  | succ i ih =>
    rw [← lfsrStep_getLsbD_of_lt (by omega), ← lfsrStepN_succ_last, ih (by omega), Nat.add_right_comm, Nat.add_assoc]

/-- The taps of R134 as the recurrence of the stream. -/
theorem lfsrBit_add_sixteen (s : LfsrWord) (t : Nat) :
    lfsrBit s (t + 16) = (lfsrBit s t ^^ lfsrBit s (t + 2) ^^ lfsrBit s (t + 3) ^^ lfsrBit s (t + 5)) := by
  calc lfsrBit s (t + 16) = (lfsrStepN s (t + 1)).getLsbD 15 := by
        rw [lfsrStepN_getLsbD (by decide), Nat.add_assoc]
    _ = _ := by
        rw [lfsrStepN_succ_last, lfsrStep_getLsbD_top, lfsrStepN_getLsbD (by decide) s t,
          lfsrStepN_getLsbD (by decide) s t, lfsrStepN_getLsbD (by decide) s t, lfsrStepN_getLsbD (by decide) s t,
          Nat.add_zero]

/-- The number of the round that begins after `n` steps is the `bits` new bits of the stream, from bit `n + 16` on. -/
theorem drawRound_testBit {bits i : Nat} (hbits : bits ≤ 16) (hi : i < bits) (s : LfsrWord) (n : Nat) :
    (drawRound bits (lfsrStepN s n)).1.testBit i = lfsrBit s (n + 16 + i) := by
  rw [drawRound_eq, BitVec.testBit_toNat, slice_getLsbD, decide_eq_true hi, Bool.true_and, ← lfsrStepN_add,
    lfsrStepN_getLsbD (by omega)]
  congr 1; omega

/-- The number of a round has no more bits than the round draws. -/
theorem drawRound_lt (bits : Nat) (s : LfsrWord) : (drawRound bits s).1 < 2 ^ bits :=
  (slice (lfsrStepN s bits) (16 - bits) bits).isLt

/-- A draw that comes to a round in range answers in range. -/
theorem drawUntil_lt_of_drawRound_lt {bits limit more k : Nat} {s : LfsrWord} (hk : k ≤ more)
    (h : (drawRound bits (lfsrStepN s (bits * k))).1 < limit) : (drawUntil bits limit more s).1 < limit := by
  induction more generalizing s k with
  | zero =>
    cases Nat.le_zero.mp hk
    exact h
  | succ more ih =>
    by_cases hfirst : (drawRound bits s).1 < limit
    case pos => rwa [drawUntil_accept _ hfirst]
    case neg =>
      rw [drawUntil_reject more hfirst]
      cases k with
      | zero => exact absurd h hfirst
      | succ k =>
        rw [Nat.mul_succ, Nat.add_comm, lfsrStepN_add] at h
        exact ih (Nat.le_of_succ_le_succ hk) h

/-- `Draw15` is in range from every state (R136): a rejected 15 is four bits 1, so five rejected rounds are twenty of them in a
row, and the recurrence gives 0 after four taps of 1. -/
theorem lfsrDraw15_lt (s : LfsrWord) : (lfsrDraw15 s).1 < 15 := by
  by_contra h
  have hones : ∀ k ≤ 4, ∀ i < 4, lfsrBit s (4 * k + 16 + i) = true := by
    intro k hk i hi
    have hrejected : ¬ (drawRound 4 (lfsrStepN s (4 * k))).1 < 15 := mt (drawUntil_lt_of_drawRound_lt hk) h
    have hbound := drawRound_lt 4 (lfsrStepN s (4 * k))
    have hmax : (drawRound 4 (lfsrStepN s (4 * k))).1 = 2 ^ 4 - 1 := by omega
    rw [← drawRound_testBit (by decide) hi, hmax, Nat.testBit_two_pow_sub_one, decide_eq_true hi]
  have hone : ∀ t, 16 ≤ t → t < 36 → lfsrBit s t = true := by
    intro t h16 h36
    have ht := hones ((t - 16) / 4) (by omega) ((t - 16) % 4) (by omega)
    rwa [show 4 * ((t - 16) / 4) + 16 + (t - 16) % 4 = t by omega] at ht
  simpa [hone] using lfsrBit_add_sixteen s 16

/-- What R135 rejects: a 10-bit number from 1000 up has its five high bits 1, and bit 4 or bit 3. -/
theorem testBit_of_thousand_le {n : Nat} (h : 1000 ≤ n) (hn : n < 2 ^ 10) :
    (∀ i, 5 ≤ i → i < 10 → n.testBit i = true) ∧ (n.testBit 4 = true ∨ n.testBit 3 = true) := by
  simp only [Nat.testBit_eq_decide_div_mod_eq, decide_eq_true_eq]
  refine ⟨fun i h5 h10 => ?_, by omega⟩
  interval_cases i <;> omega

/-- `Draw1000` is in range from every state (R135): three rejected rounds fix fifteen bits of the stream, five in each. By the
recurrence these give the five bits between the first round's and the second's, and then two bits that are 0, of which the
third rejection needs one to be 1. -/
theorem lfsrDraw1000_lt (s : LfsrWord) : (lfsrDraw1000 s).1 < 1000 := by
  by_contra h
  have hrejected : ∀ k ≤ 2, (∀ i, 5 ≤ i → i < 10 → lfsrBit s (10 * k + 16 + i) = true) ∧
      (lfsrBit s (10 * k + 16 + 4) = true ∨ lfsrBit s (10 * k + 16 + 3) = true) := by
    intro k hk
    have hbits := testBit_of_thousand_le (Nat.not_lt.mp (mt (drawUntil_lt_of_drawRound_lt hk) h))
      (drawRound_lt 10 (lfsrStepN s (10 * k)))
    have hstream : ∀ i < 10, (drawRound 10 (lfsrStepN s (10 * k))).1.testBit i = lfsrBit s (10 * k + 16 + i) :=
      fun i hi => drawRound_testBit (by decide) hi s (10 * k)
    rw [hstream 4 (by decide), hstream 3 (by decide)] at hbits
    exact ⟨fun i h5 h10 => by rw [← hstream i h10, hbits.1 i h5 h10], hbits.2⟩
  have hone : ∀ t, 16 ≤ t → t < 46 → 5 ≤ (t - 16) % 10 → lfsrBit s t = true := by
    intro t h16 h46 h5
    have ht := (hrejected ((t - 16) / 10) (by omega)).1 ((t - 16) % 10) h5 (by omega)
    rwa [show 10 * ((t - 16) / 10) + 16 + (t - 16) % 10 = t by omega] at ht
  have h29 : lfsrBit s 29 = false := by simpa [hone] using lfsrBit_add_sixteen s 29
  have hsum : (lfsrBit s 28 ^^ lfsrBit s 30) = true := by simpa [hone] using (lfsrBit_add_sixteen s 28).symm
  have h27 : lfsrBit s 27 = true := by simpa [hone, Bool.xor_assoc, hsum] using lfsrBit_add_sixteen s 25
  have h30 : lfsrBit s 30 = true := by simpa [hone, h27, h29] using lfsrBit_add_sixteen s 27
  have h28 : lfsrBit s 28 = false := by simpa [h30] using hsum
  have h26 : lfsrBit s 26 = false := by simpa [hone, h28, h29] using lfsrBit_add_sixteen s 26
  have h39 : lfsrBit s 39 = false := by simpa [hone, h26, h28] using lfsrBit_add_sixteen s 23
  have h40 : lfsrBit s 40 = false := by simpa [hone, h26, h27, h29, h30] using lfsrBit_add_sixteen s 24
  simpa [h39, h40] using (hrejected 2 (by decide)).2

/-- The machine's source answers in the two ranges (R130). -/
theorem lfsr16_inRange : lfsr16.InRange := fun s => ⟨lfsrDraw1000_lt s, lfsrDraw15_lt s⟩

end Sys2Proof.Machine
end

section
/-! The channel and its source as commands (R130, R132, R133, R138): INJ, DROPQ and SEED. -/

namespace Sys2Proof.Machine

/-- Settles O47: the drop decision is a function of the first answer, the injection of the two. -/
theorem channelDependsOnlyOnInRangeDraws : Obligations.ChannelDependsOnlyOnInRangeDraws := by
  refine ⟨lfsr16_inRange, fun σ τ a b r q cw p hfirst => ⟨?_, fun hsecond => ?_⟩⟩
  · rw [shouldDropMessage_eq, shouldDropMessage_eq, hfirst]
  · by_cases hlt : (b.draw1000 q).1 < p.toNat
    case pos => rw [injectBitError_of_lt a cw p r (hfirst ▸ hlt), injectBitError_of_lt b cw p q hlt, hsecond]
    case neg => rw [injectBitError_of_not_lt a cw p r (hfirst ▸ hlt), injectBitError_of_not_lt b cw p q hlt]

/-- `cw ^ (1 << e)` is the codeword with bit `e` flipped (R132). -/
theorem xor_one_shiftLeft_getLsbD {i e : Nat} (hi : i < 15) (cw : Codeword) :
    (cw ^^^ (1#15 <<< e)).getLsbD i = (cw.getLsbD i ^^ decide (i = e)) := by
  rw [BitVec.getLsbD_xor, ← BitVec.twoPow_eq, BitVec.getLsbD_twoPow]
  congr 1
  by_cases h : e = i
  · simp [h, hi]
  · simp [h, Ne.symm h]

/-- Settles O48: the two cases of the injection, the drawn position in the range of the codeword. -/
theorem injFlipsTheDrawnBit : Obligations.InjFlipsTheDrawnBit := by
  intro cw p s d e
  have he : e.1 < 15 := lfsrDraw15_lt d.2
  refine ⟨fun hlt => ?_, fun hge => answers_of_effect ?_⟩
  · refine ⟨cw ^^^ (1#15 <<< e.1), BitVec.ofNat 4 e.1, answers_of_effect ?_, ?_, he,
      fun i hi => xor_one_shiftLeft_getLsbD hi cw⟩
    · rw [effect_inj, injectBitError_of_lt lfsr16 cw p s.regs.lfsr hlt]; rfl
    · rw [BitVec.toNat_ofNat, Nat.mod_eq_of_lt (by omega)]
  · rw [effect_inj, injectBitError_of_not_lt lfsr16 cw p s.regs.lfsr hge]; rfl

/-- Settles O50: it is the equation of the command's effect. -/
theorem dropqAnswersWhetherTheDrawIsBelow : Obligations.DropqAnswersWhetherTheDrawIsBelow :=
  fun p s => answers_of_effect (effect_dropq p s.regs)

/-- The operand of a SEED word is the value written into it (R67). -/
theorem immField_encode_seed (v : LfsrWord) : immField (encode (.seed v)) = v := by
  apply BitVec.eq_of_getLsbD_eq
  intro i hi
  have hop : (0x90000000#32).getLsbD i = false := by interval_cases i <;> rfl
  simp [immField, encode, hop, hi, show i < 32 by omega, -BitVec.getLsbD_eq_getElem]

/-- A word of opcode 9 with its must-be-zero bits 0 and a non-zero operand is SEED of that operand (R72). -/
theorem decode_of_seed {w : CmdWord} (hop : opcodeField w = 9) (hz : w &&& Claim.zeroMask 9 = 0) (himm : immField w ≠ 0) :
    decode w = .command (.seed (immField w)) := by
  rw [Claim.zeroMask] at hz
  simp only [decode, hop, hz, himm, ne_eq, not_true_eq_false, if_false]

/-- The SEED word of a non-zero value decodes to that command. -/
theorem decode_encode_seed {v : LfsrWord} (hv : v ≠ 0) : decode (encode (.seed v)) = .command (.seed v) := by
  have hrow : encode (.seed v) &&& (mapRow 9).2.1 = (mapRow 9).2.2 :=
    Laws.and_mask_operand 16 v _ _ (by decide) (by decide)
  obtain ⟨hop, hz⟩ := (matches_mapRow_iff (by decide)).mp hrow
  have himm := immField_encode_seed v
  rw [decode_of_seed hop hz (himm.trans_ne hv), himm]

/-- The SEED word of a non-zero value loads the source and returns a response with no field set. -/
theorem wordEffect_encode_seed {v : LfsrWord} (hv : v ≠ 0) (g : Registers) :
    wordEffect (encode (.seed v)) g = ({ g with lfsr := v }, Claim.plain g) := by
  rw [wordEffect_command (decode_encode_seed hv), effect_seed v g hv, Claim.plain]

/-- Settles O52: SEED leaves no trace of the source's state before it, and the responses to the words after it depend on the
registers alone. -/
theorem seedLoadsTheSourceReproducibly : Obligations.SeedLoadsTheSourceReproducibly := by
  refine ⟨fun v s hv => answers_of_effect (effect_seed v s.regs hv), fun s => ?_, fun v ws a b hv hab => ?_⟩
  · have hzero : decode 0x90000000#32 = .illegal .illegalOperand :=
      decode_of_seed_zero (by decide) (by decide) (by decide)
    rw [issue_eq, wordEffect_illegal hzero]
    exact ⟨rfl, rfl⟩
  · have hstatus : Claim.plain a.regs = Claim.plain b.regs := by rw [hab]; rfl
    have hloaded : { a.regs with lfsr := v } = { b.regs with lfsr := v } := by rw [hab]
    have hresp : (issue (encode (.seed v)) a).1 = (issue (encode (.seed v)) b).1 := by
      simp only [issue_eq, wordEffect_encode_seed hv, hstatus]
    have hregs : (issue (encode (.seed v)) a).2.regs = (issue (encode (.seed v)) b).2.regs := by
      simp only [issue_eq, wordEffect_encode_seed hv]
      exact hloaded
    rw [issueAll_cons, issueAll_cons, hresp, (issueAll_congr_regs ws hregs).1]

end Sys2Proof.Machine
end

section
/-! The decoder (R150 to R153, R156): the syndrome and the data bits one by one, the syndrome of a codeword and of a single
bit, and with them what DEC gives back under no error and under one. The facts about codewords hold in either data order. -/

namespace Sys2Proof.Machine

/-- Bit `k` of the syndrome is the exclusive-OR over the positions whose number has bit `k` set (R151). -/
theorem hammingSyndrome_getLsbD {k : Nat} (hk : k < 4) (cw : Codeword) :
    (hammingSyndrome cw).getLsbD k = xorAt cw (positionsWith k) := by
  rw [hammingSyndrome, bitsBE_getLsbD 4 _ k hk, show 3 - (4 - 1 - k) = k by omega]

/-- A string of four bits is its bits put one after the other. -/
theorem bitsBE_four (f : Nat → Bool) :
    bitsBE 4 f = BitVec.ofBool (f 0) ++ BitVec.ofBool (f 1) ++ BitVec.ofBool (f 2) ++ BitVec.ofBool (f 3) := by
  have hbits : ∀ a b c d : Bool, (BitVec.cons a (BitVec.cons b (BitVec.cons c (BitVec.cons d 0#0))) : BitVec 4) =
      BitVec.ofBool a ++ BitVec.ofBool b ++ BitVec.ofBool c ++ BitVec.ofBool d := by decide
  exact hbits (f 0) (f 1) (f 2) (f 3)

/-- The model's syndrome is the one of R151's lists. -/
theorem hammingSyndrome_eq_syndromeOf (cw : Codeword) : hammingSyndrome cw = Claim.syndromeOf cw := by
  rw [hammingSyndrome, bitsBE_four]
  simp only [Nat.reduceSub, positionsWith_zero, positionsWith_one, positionsWith_two, positionsWith_three, xorAt,
    List.foldl_cons, List.foldl_nil, Bool.false_xor, atPos, Claim.syndromeOf]

/-- The syndrome is linear (R151). -/
theorem hammingSyndrome_xor (a b : Codeword) : hammingSyndrome (a ^^^ b) = hammingSyndrome a ^^^ hammingSyndrome b := by
  apply BitVec.eq_of_getLsbD_eq
  intro k hk
  simp only [BitVec.getLsbD_xor, hammingSyndrome_getLsbD hk, xorAt_xor]

/-- The syndrome of a word with bit `i` alone set is the number of its position. -/
theorem hammingSyndrome_one_shiftLeft : ∀ i < 15, hammingSyndrome (1#15 <<< i) = BitVec.ofNat 4 (i + 1) := by decide

/-- An exclusive-OR over positions depends on the bits at those positions alone. -/
theorem xorAt_congr {a b : Codeword} {ps : List Nat} (h : ∀ p ∈ ps, atPos a p = atPos b p) : xorAt a ps = xorAt b ps :=
  List.foldl_ext _ _ _ fun x p hp => by rw [h p hp]

/-- The positions whose number has bit `k` set are the parity position `2^k` and those its parity bit covers (R122, R151). -/
theorem positionsWith_eq_cons_covered :
    ∀ k < 4, positionsWith k = 2 ^ k :: (positionsWith k).filter (fun p => p ≠ 2 ^ k) := by decide

/-- No parity bit covers a parity position (R122). -/
theorem covered_ne_parity :
    ∀ k < 4, ∀ p ∈ (positionsWith k).filter (fun p => p ≠ 2 ^ k), ∀ j < 4, p - 1 ≠ 2 ^ j - 1 := by decide

/-- The syndrome of a codeword is 0 (R125): each parity bit stored is the parity of the data bits stored. -/
theorem hammingSyndrome_hammingEncode (o : DataOrder) (d : Block) : hammingSyndrome (hammingEncode o d) = 0 := by
  apply BitVec.eq_of_getLsbD_eq
  intro k hk
  have hstored : atPos (hammingEncode o d) (2 ^ k) = parityOf (placeData (orderBlock o d)) k :=
    hammingEncode_getLsbD_parity hk o d
  have hrecomputed : xorAt (hammingEncode o d) ((positionsWith k).filter (fun p => p ≠ 2 ^ k)) =
      parityOf (placeData (orderBlock o d)) k :=
    xorAt_congr fun p hp => hammingEncode_getLsbD_of_ne (covered_ne_parity k hk p hp) o d
  rw [hammingSyndrome_getLsbD hk, positionsWith_eq_cons_covered k hk, xorAt_cons, hstored, hrecomputed, Bool.xor_self]
  exact BitVec.getLsbD_zero.symm

/-- The syndrome of a codeword with bit `i` flipped names the position of that bit (R151). -/
theorem hammingSyndrome_hammingEncode_xor {i : Nat} (hi : i < 15) (o : DataOrder) (d : Block) :
    hammingSyndrome (hammingEncode o d ^^^ (1#15 <<< i)) = BitVec.ofNat 4 (i + 1) := by
  rw [hammingSyndrome_xor, hammingSyndrome_hammingEncode, hammingSyndrome_one_shiftLeft i hi]
  exact BitVec.zero_xor

/-- The data bit read at the (i+1)-th smallest data position is bit `i` of the block extracted (R152). -/
theorem hammingExtract_getLsbD {i : Nat} (hi : i < 11) (cw : Codeword) :
    (hammingExtract .ascending cw).getLsbD i = cw.getLsbD (Claim.dataBits.getD i 0) := by
  interval_cases i <;> simp [hammingExtract, orderBlock, slice_getLsbD, Claim.dataBits, -BitVec.getLsbD_eq_getElem]

theorem orderBlock_orderBlock (o : DataOrder) (d : Block) : orderBlock o (orderBlock o d) = d := by
  cases o with
  | ascending => rfl
  | descending => exact BitVec.reverse_reverse_eq

/-- Extraction is the inverse of the encoder's placement (R152). -/
theorem hammingExtract_hammingEncode (o : DataOrder) (d : Block) : hammingExtract o (hammingEncode o d) = d := by
  have hplaced : hammingExtract .ascending (hammingEncode o d) = orderBlock o d := by
    apply BitVec.eq_of_getLsbD_eq
    intro i hi
    rw [hammingExtract_getLsbD hi, hammingEncode_getLsbD_dataBits hi]
  calc hammingExtract o (hammingEncode o d)
      = orderBlock o (hammingExtract .ascending (hammingEncode o d)) := rfl
    _ = d := by rw [hplaced, orderBlock_orderBlock]

/-- A codeword is left as it is by the correction (R150). -/
theorem hammingCorrect_hammingEncode (o : DataOrder) (d : Block) :
    hammingCorrect (hammingEncode o d) = hammingEncode o d :=
  if_neg fun hne => hne (hammingSyndrome_hammingEncode o d)

/-- No bit of a codeword is at position 0, the syndrome that names no bit (R150). -/
theorem position_ne_zero : ∀ i < 15, BitVec.ofNat 4 (i + 1) ≠ 0 := by decide

/-- The correction flips a single flipped bit back: its position is the syndrome (R150). -/
theorem hammingCorrect_hammingEncode_xor {i : Nat} (hi : i < 15) (o : DataOrder) (d : Block) :
    hammingCorrect (hammingEncode o d ^^^ (1#15 <<< i)) = hammingEncode o d := by
  have hs := hammingSyndrome_hammingEncode_xor hi o d
  have hnat : (BitVec.ofNat 4 (i + 1)).toNat = i + 1 := by rw [BitVec.toNat_ofNat, Nat.mod_eq_of_lt (by omega)]
  rw [hammingCorrect, hs, if_pos (position_ne_zero i hi), flipPos, hnat, Nat.add_sub_cancel, BitVec.xor_assoc,
    BitVec.xor_self, BitVec.xor_zero]

/-- DEC answers with the block of the corrected word, its syndrome, and whether that is 0 (R150, R153). -/
theorem answers_dec {cw : Codeword} {block : Block} {syndrome : Syndrome} (s : State)
    (hblock : hammingDecode Config.dataOrder cw = block) (hsyndrome : hammingSyndrome cw = syndrome) :
    Answers (.dec cw) s s.regs
      { Claim.plain s.regs with
        block := block
        corrected := decide (syndrome ≠ 0)
        syndrome := syndrome } := by
  subst hblock hsyndrome
  have hflag : correctedFlag (hammingSyndrome cw) = decide (hammingSyndrome cw ≠ 0) :=
    Bool.eq_iff_iff.mpr (by simp [correctedFlag])
  rw [← hflag]
  exact answers_of_effect (effect_dec cw s.regs)

/-- Settles O24: the block is read off the corrected word, and the model's syndrome is R151's. -/
theorem decCorrectsAndExtracts : Obligations.DecCorrectsAndExtracts := by
  intro cw s
  have hs := hammingSyndrome_eq_syndromeOf cw
  refine ⟨hammingDecode Config.dataOrder cw, answers_dec s rfl hs, fun i hi => ?_⟩
  rw [← hs]
  exact hammingExtract_getLsbD hi (hammingCorrect cw)

/-- Settles O26: under no error and under one, the correction restores the codeword, and extraction undoes the placement. -/
theorem decRecoversEveryBlockUnderOneError : Obligations.DecRecoversEveryBlockUnderOneError := by
  intro d s
  refine ⟨answers_dec s ?_ (hammingSyndrome_hammingEncode _ d), fun i hi => ?_⟩
  · rw [hammingDecode, hammingCorrect_hammingEncode, hammingExtract_hammingEncode]
  · have hblock : hammingDecode Config.dataOrder (hammingEncode Config.dataOrder d ^^^ (1#15 <<< i)) = d := by
      rw [hammingDecode, hammingCorrect_hammingEncode_xor hi, hammingExtract_hammingEncode]
    rw [← decide_eq_true (position_ne_zero i hi)]
    exact answers_dec s hblock (hammingSyndrome_hammingEncode_xor hi _ d)

end Sys2Proof.Machine
end

section
/-! The host's validator (R171): its flag is false on equal sequences and on no others. -/

namespace Sys2Proof.Machine

/-- The validator stops at the first difference or at the end of one sequence, so it says false only of a sequence and itself. -/
@[simp] theorem validate_eq_false_iff (A B : List Byte) : validate A B = false ↔ A = B := by
  induction A generalizing B with
  | nil => cases B <;> simp [validate]
  | cons a as ih =>
    cases B with
    | nil => simp [validate]
    | cons b bs =>
      by_cases hab : a = b
      · simp [validate, hab, ih]
      · simp [validate, hab]

/-- Settles O53: false means equal, and sequences are equal when their lengths and their bytes are. -/
theorem validatorIsFalseExactlyOnEqualSequences : Obligations.ValidatorIsFalseExactlyOnEqualSequences := by
  intro A B
  rw [validate_eq_false_iff]
  constructor
  · rintro rfl
    exact ⟨rfl, fun _ _ => rfl⟩
  · rintro ⟨hlength, hbytes⟩
    refine List.ext_getElem hlength fun i hA hB => ?_
    have hi := hbytes i hA
    rwa [List.getD_eq_getElem _ _ hA, List.getD_eq_getElem _ _ hB] at hi

end Sys2Proof.Machine
end

section
/-! Faults (R191, R193, R194): the code every word returns, and that a set `STATUS.ILL` shows in `rsp.ill_sticky` alone. -/

namespace Sys2Proof.Machine

/-- The registers with `STATUS.ILL` set (R193). -/
def RegistersOf.withIll {σ : Type} {lenW : Nat} (g : RegistersOf σ lenW) : RegistersOf σ lenW :=
  { g with statusIll := true }

/-- The response with `ill_sticky` = 1 (R194). -/
def Response.withIllSticky (r : Response) : Response := { r with illSticky := true }

@[simp] theorem RegistersOf.withIll_statusIll {σ : Type} {lenW : Nat} (g : RegistersOf σ lenW) :
    g.withIll.statusIll = true := rfl
@[simp] theorem Response.withIllSticky_illSticky (r : Response) : r.withIllSticky.illSticky = true := rfl
@[simp] theorem Response.noSticky_withIllSticky (r : Response) :
    Claim.noSticky r.withIllSticky = Claim.noSticky r := rfl

/-- No named fault has the code 0, which is `NONE` (R191). -/
theorem faultCode_ne_zero (f : FaultCode) : f.code ≠ 0 := by
  cases f <;> decide

/-- A well-formed command completes: its response has the code `NONE` (R75, R191). -/
theorem effect_fault {i : Instr} (h : i.wellFormed = true) (g : Registers) : (effect i g).2.fault = 0 := by
  cases i with
  | pkpush b =>
    rcases Nat.lt_or_ge g.pkCnt.toNat 3 with hkeep | hemit
    · rw [effect_pkpush_keep b g hkeep]; rfl
    · rw [effect_pkpush_emit b g hemit]; rfl
  | pkflush =>
    rcases Nat.eq_zero_or_pos g.pkCnt.toNat with hnone | hemit
    · rw [effect_pkflush_none g hnone]; rfl
    · rw [effect_pkflush_emit g hemit]; rfl
  | seed v =>
    have hv : v ≠ 0 := by simpa [Instr.wellFormed] using h
    rw [effect_seed v g hv]; rfl
  | enc _ | dec _ | upstart _ | uppush _ | inj _ _ | dropq _ => rfl

theorem wordEffect_fault_of_command {w : CmdWord} {i : Instr} (h : decode w = .command i) (g : Registers) :
    (wordEffect w g).2.fault = 0 := by
  rw [wordEffect_command h, effect_fault (wellFormed_of_decode h)]

theorem wordEffect_fault_of_illegal {w : CmdWord} {f : FaultCode} (h : decode w = .illegal f) (g : Registers) :
    (wordEffect w g).2.fault = f.code := by
  rw [wordEffect_illegal h]

/-- A command reads `STATUS.ILL` only to seal its response: set before the command, it is set after it and in the response,
and all else is as if it were not (R194). -/
theorem effect_withIll (i : Instr) (g : Registers) :
    effect i g.withIll = ((effect i g).1.withIll, (effect i g).2.withIllSticky) := by
  cases i with
  | pkpush b =>
    rcases Nat.lt_or_ge g.pkCnt.toNat 3 with hkeep | hemit
    · rw [effect_pkpush_keep b g hkeep, effect_pkpush_keep b g.withIll hkeep]; rfl
    · rw [effect_pkpush_emit b g hemit, effect_pkpush_emit b g.withIll hemit]; rfl
  | pkflush =>
    rcases Nat.eq_zero_or_pos g.pkCnt.toNat with hnone | hemit
    · rw [effect_pkflush_none g hnone, effect_pkflush_none g.withIll hnone]; rfl
    · rw [effect_pkflush_emit g hemit, effect_pkflush_emit g.withIll hemit]; rfl
  | seed v =>
    by_cases hv : v = 0
    case pos => rw [hv, effect_seed_zero, effect_seed_zero]; rfl
    case neg => rw [effect_seed v g hv, effect_seed v g.withIll hv]; rfl
  | enc _ | dec _ | upstart _ | uppush _ | inj _ _ | dropq _ => rfl

theorem wordEffect_withIll (w : CmdWord) (g : Registers) :
    wordEffect w g.withIll = ((wordEffect w g).1.withIll, (wordEffect w g).2.withIllSticky) := by
  cases hd : decode w with
  | command i => rw [wordEffect_command hd, wordEffect_command hd, effect_withIll]
  | illegal f => rw [wordEffect_illegal hd, wordEffect_illegal hd]; rfl

/-- The same for a list of words (R194). -/
theorem issueAll_withIll (ws : List CmdWord) {s t : State} (h : t.regs = s.regs.withIll) :
    (issueAll ws t).1 = (issueAll ws s).1.map Response.withIllSticky ∧
      (issueAll ws t).2.regs = (issueAll ws s).2.regs.withIll := by
  induction ws generalizing s t with
  | nil => exact ⟨rfl, h⟩
  | cons w ws ih =>
    have hresp : (issue w t).1 = (issue w s).1.withIllSticky := by simp only [issue_eq, h, wordEffect_withIll]
    have hregs : (issue w t).2.regs = (issue w s).2.regs.withIll := by
      simp only [issue_eq, State.after_regs, h, wordEffect_withIll]
    obtain ⟨hresps, hlast⟩ := ih hregs
    rw [issueAll_cons, issueAll_cons, hresp, hresps]
    exact ⟨rfl, hlast⟩

/-- Settles O7: it is the step of a word with the effect of an illegal one. -/
theorem illegalWordFaultsAndChangesNothingElse : Obligations.IllegalWordFaultsAndChangesNothingElse := by
  intro s w rest f hport hd
  have hstep := step_of_port_command hport
  rw [wordEffect_illegal hd] at hstep
  exact ⟨hstep, faultCode_ne_zero f⟩

/-- Settles O13, one case for each test of R72 and one for the words that fail none. -/
theorem faultFieldHoldsTheCodeOfTheWord : Obligations.FaultFieldHoldsTheCodeOfTheWord := by
  intro s w rest hport
  refine ⟨_, _, step_of_port_command hport, ?_⟩
  split_ifs with hop hz hseed
  · rw [wordEffect_fault_of_illegal (decode_of_opcode_unassigned hop)]; rfl
  · rw [wordEffect_fault_of_illegal (decode_of_reserved_bit (by omega) (by omega) hz)]; rfl
  · obtain ⟨h9, himm⟩ := hseed
    rw [h9, not_not] at hz
    rw [wordEffect_fault_of_illegal (decode_of_seed_zero h9 hz himm)]; rfl
  · have hopcode : 1 ≤ opcodeField w ∧ opcodeField w ≤ 9 := by omega
    obtain ⟨i, hd, -⟩ :=
      decodes_to_opcode_iff.mpr ⟨hopcode, ⟨rfl, not_not.mp hz⟩, fun h9 himm => hseed ⟨h9, himm⟩⟩
    rw [wordEffect_fault_of_command hd]; rfl

/-- Settles O19: with `STATUS.ILL` set first, the responses are the others with `ill_sticky` = 1 and the registers the others
with `STATUS.ILL` set. -/
theorem setStatusIllChangesNoLaterCommand : Obligations.SetStatusIllChangesNoLaterCommand := by
  refine ⟨fun ws s => ?_, fun s rest hport => ⟨_, step_of_port_reset hport, rfl⟩⟩
  obtain ⟨hresps, hregs⟩ := issueAll_withIll ws
    (s := { s with regs := { s.regs with statusIll := false } })
    (t := { s with regs := { s.regs with statusIll := true } }) rfl
  refine ⟨?_, ?_, ?_, hregs⟩
  · simp [hresps]
  · simp [hresps]
  · simp [hregs]

end Sys2Proof.Machine
end

section
/-! The encoder against the decoder (R71 to R73, R79): a word is the opcode, the must-be-zero bits and the operand fields put
together, and the two directions of the round trip are read off these parts. -/

namespace Sys2Proof.Machine

/-- The word of every command matches a row of its opcode. -/
theorem matchesRow (i : Instr) : Laws.MatchesRow.Statement i := by
  cases i with
  | enc d => exact Laws.MatchesRow.enc d
  | dec c => exact Laws.MatchesRow.dec c
  | pkpush b => exact Laws.MatchesRow.pkpush b
  | pkflush => exact Laws.MatchesRow.pkflush
  | upstart n => exact Laws.MatchesRow.upstart n
  | uppush d => exact Laws.MatchesRow.uppush d
  | inj c p => exact Laws.MatchesRow.inj c p
  | dropq p => exact Laws.MatchesRow.dropq p
  | seed v => exact Laws.MatchesRow.seed v

/-- The decoder's table and the map of R71 have the same rows. -/
theorem opcodeTable_rows : ∀ row ∈ opcodeTable, mapRow row.opcode = (row.opcode, row.mask, row.pattern) := by decide

theorem opcode_bounds (i : Instr) : 1 ≤ i.opcode ∧ i.opcode ≤ 9 := by
  cases i <;> simp [Instr.opcode]

/-- The word of a command has its opcode, and no operand reaches a must-be-zero bit (R71, R79). -/
theorem encode_opcode_and_zeroMask (i : Instr) :
    opcodeField (encode i) = i.opcode ∧ encode i &&& Claim.zeroMask i.opcode = 0 := by
  obtain ⟨row, hrow, hop, hmatch⟩ := matchesRow i
  have hmap := opcodeTable_rows row hrow
  rw [hop] at hmap
  exact (matches_mapRow_iff (opcode_bounds i)).mp (by rw [hmap]; exact hmatch)

/-- An operand written below bits that leave its field 0 is read back from that field. -/
theorem extractLsb'_or_operand {n : Nat} (hn : n ≤ 32) (v : BitVec n) {p : CmdWord}
    (hp : ∀ i < n, p.getLsbD i = false) : (p ||| v.setWidth 32).extractLsb' 0 n = v := by
  apply BitVec.eq_of_getLsbD_eq
  intro i hi
  simp [hi, hp i hi, show i < 32 by omega, -BitVec.getLsbD_eq_getElem]

/-- The probability of a word, read back from bits 25:16 whatever stands below them. -/
theorem probField_operand (p : Prob) (c : Codeword) {q : CmdWord} (hq : ∀ i < 10, q.getLsbD (16 + i) = false) :
    probField (q ||| (p.setWidth 32 <<< 16) ||| c.setWidth 32) = p := by
  apply BitVec.eq_of_getLsbD_eq
  intro i hi
  have hc : c.getLsbD (16 + i) = false := BitVec.getLsbD_of_ge _ _ (by omega)
  simp [probField, hi, hq i hi, hc, show 16 + i < 32 by omega, show i < 32 by omega, -BitVec.getLsbD_eq_getElem]

/-- The low bits of a word of INJ hold the codeword alone. -/
theorem inj_low_bits_zero (p : Prob) : ∀ i < 15, (0x70000000#32 ||| (p.setWidth 32 <<< 16)).getLsbD i = false := by
  intro i hi
  have hop : (0x70000000#32).getLsbD i = false := by interval_cases i <;> rfl
  rw [BitVec.getLsbD_or, hop, BitVec.getLsbD_shiftLeft]
  simp [show i < 16 by omega]

/-- The command of the row of opcode `n`, its operands read from their fields (R73). -/
def rowCommand (w : CmdWord) : Nat → Instr
  | 1 => .enc (blockField w)
  | 2 => .dec (codewordField w)
  | 3 => .pkpush (byteField w)
  | 4 => .pkflush
  | 5 => .upstart (immField w)
  | 6 => .uppush (blockField w)
  | 7 => .inj (codewordField w) (probField w)
  | 8 => .dropq (probField w)
  | _ => .seed (immField w)

/-- A word that fails no test of R72 decodes to the command of its row. -/
theorem decode_eq_rowCommand {w : CmdWord} {n : Nat} (hn : 1 ≤ n ∧ n ≤ 9) (hop : opcodeField w = n)
    (hz : w &&& Claim.zeroMask n = 0) (hs : n = 9 → immField w ≠ 0) : decode w = .command (rowCommand w n) := by
  obtain ⟨h1, h9⟩ := hn
  interval_cases n
  on_goal 9 => exact decode_of_seed hop hz (hs rfl)
  all_goals
    simp only [decode, hop, rowCommand, ifZero_eq_command_iff, and_true]
    exact hz

/-- A word that decodes to a command fails no test of R72, and the command is the one of its row. -/
theorem eq_rowCommand_of_decode {w : CmdWord} {i : Instr} (h : decode w = .command i) :
    (1 ≤ i.opcode ∧ i.opcode ≤ 9) ∧ (opcodeField w = i.opcode ∧ w &&& Claim.zeroMask i.opcode = 0) ∧
      i = rowCommand w i.opcode := by
  obtain ⟨hn, ⟨hop, hz⟩, hs⟩ := decodes_to_opcode_iff.mp ⟨i, h, rfl⟩
  exact ⟨hn, ⟨hop, hz⟩, Decoded.command.inj (h.symm.trans (decode_eq_rowCommand hn hop hz hs))⟩

/-- Every operand of a command's word is read back from its field. -/
theorem rowCommand_encode (i : Instr) : rowCommand (encode i) i.opcode = i := by
  cases i with
  | enc d => exact congrArg Instr.enc (extractLsb'_or_operand (by decide) d (by decide))
  | dec c => exact congrArg Instr.dec (extractLsb'_or_operand (by decide) c (by decide))
  | pkpush b => exact congrArg Instr.pkpush (extractLsb'_or_operand (by decide) b (by decide))
  | pkflush => rfl
  | upstart n => exact congrArg Instr.upstart (extractLsb'_or_operand (by decide) n (by decide))
  | uppush d => exact congrArg Instr.uppush (extractLsb'_or_operand (by decide) d (by decide))
  | inj c p =>
    exact congrArg₂ Instr.inj (extractLsb'_or_operand (by decide) c (inj_low_bits_zero p)) (probField_operand p c (by decide))
  | dropq p =>
    have hword : encode (.dropq p) = 0x80000000#32 ||| (p.setWidth 32 <<< 16) ||| (0 : Codeword).setWidth 32 :=
      (BitVec.or_zero).symm
    exact congrArg Instr.dropq (hword ▸ probField_operand p 0 (by decide))
  | seed v => exact congrArg Instr.seed (immField_encode_seed v)

/-- Decoding the word of a well-formed command gives the command back: its opcode selects the row, the must-be-zero bits are
0, and every operand is read back from its field. -/
theorem decode_encode {i : Instr} (hwf : i.wellFormed = true) : decode (encode i) = .command i := by
  obtain ⟨hop, hz⟩ := encode_opcode_and_zeroMask i
  have hrow := rowCommand_encode i
  have hs : i.opcode = 9 → immField (encode i) ≠ 0 := by
    intro h9
    rw [h9] at hrow
    rw [← hrow] at hwf
    simpa [rowCommand, Instr.wellFormed] using hwf
  rw [decode_eq_rowCommand (opcode_bounds i) hop hz hs, hrow]

/-- Settles O1, from the opcode, the must-be-zero bits and the operand fields of a command's word. -/
theorem decodeOfEncodeIsTheCommand : Obligations.DecodeOfEncodeIsTheCommand := fun _ => decode_encode

/-- A field written back in its place is the word with every other bit cleared. -/
theorem setWidth_extractLsb'_shiftLeft {lo n : Nat} {m : CmdWord} (w : CmdWord)
    (hm : ∀ i < 32, m.getLsbD i = decide (lo ≤ i ∧ i < lo + n)) :
    (w.extractLsb' lo n).setWidth 32 <<< lo = w &&& m := by
  apply BitVec.eq_of_getLsbD_eq
  intro i hi
  rw [BitVec.getLsbD_and, hm i hi]
  by_cases hfield : lo ≤ i ∧ i < lo + n
  · obtain ⟨hlo, hhi⟩ := hfield
    simp [hi, hlo, hhi, show ¬ i < lo by omega, show i - lo < n by omega, show i - lo < 32 by omega,
      show lo + (i - lo) = i by omega, -BitVec.getLsbD_eq_getElem]
  · rcases Nat.lt_or_ge i lo with hlow | hhigh
    · simp [hlow, hfield]
    · simp [show ¬ i - lo < n by omega, show ¬ i < lo + n by omega]

/-- A word is its opcode and the bits a mask keeps, when its bits outside the two are 0. -/
theorem opcode_or_and_eq {w p z m : CmdWord} (hop : w &&& 0xF0000000#32 = p) (hz : w &&& z = 0)
    (hcover : 0xF0000000#32 ||| z ||| m = BitVec.allOnes 32) : p ||| (w &&& m) = w := by
  calc p ||| (w &&& m)
      = w &&& (0xF0000000#32 ||| z ||| m) := by
        rw [BitVec.and_or_distrib_left, BitVec.and_or_distrib_left, hz, hop]
        exact congrArg (· ||| (w &&& m)) BitVec.or_zero.symm
    _ = w := by rw [hcover, BitVec.and_allOnes]

/-- The same for a word with one operand, at its low end. -/
theorem opcode_or_low_operand {w p z : CmdWord} {k : Nat} (m : CmdWord) (hop : w &&& 0xF0000000#32 = p) (hz : w &&& z = 0)
    (hcover : 0xF0000000#32 ||| z ||| m = BitVec.allOnes 32)
    (hm : ∀ i < 32, m.getLsbD i = decide (0 ≤ i ∧ i < 0 + k)) : p ||| (w.extractLsb' 0 k).setWidth 32 = w := by
  have hfield := setWidth_extractLsb'_shiftLeft w hm
  rw [BitVec.shiftLeft_zero] at hfield
  rw [hfield, opcode_or_and_eq hop hz hcover]

/-- The word of a row's command, its must-be-zero bits 0, is the word its operands were read from: opcode, must-be-zero bits
and operand fields are all of its bits. -/
theorem encode_rowCommand {w : CmdWord} {n : Nat} (hn : 1 ≤ n ∧ n ≤ 9) (hop : opcodeField w = n)
    (hz : w &&& Claim.zeroMask n = 0) : encode (rowCommand w n) = w := by
  obtain ⟨h1, h9⟩ := hn
  have hbits := (and_opcode_bits_eq_iff (by omega)).mpr hop
  have hprob : (probField w).setWidth 32 <<< 16 = w &&& 0x03FF0000#32 :=
    setWidth_extractLsb'_shiftLeft w (by decide)
  interval_cases n
  · exact opcode_or_low_operand 0x7FF#32 hbits hz (by decide) (by decide)
  · exact opcode_or_low_operand 0x7FFF#32 hbits hz (by decide) (by decide)
  · exact opcode_or_low_operand 0xFF#32 hbits hz (by decide) (by decide)
  · have hword := opcode_or_and_eq (m := 0#32) hbits hz (by decide)
    rwa [BitVec.and_zero, BitVec.or_zero] at hword
  · exact opcode_or_low_operand 0xFFFF#32 hbits hz (by decide) (by decide)
  · exact opcode_or_low_operand 0x7FF#32 hbits hz (by decide) (by decide)
  · have hcw : (codewordField w).setWidth 32 <<< 0 = w &&& 0x7FFF#32 := setWidth_extractLsb'_shiftLeft w (by decide)
    rw [BitVec.shiftLeft_zero] at hcw
    rw [rowCommand, encode, hprob, hcw, BitVec.or_assoc, ← BitVec.and_or_distrib_left]
    exact opcode_or_and_eq hbits hz (by decide)
  · rw [rowCommand, encode, hprob]
    exact opcode_or_and_eq hbits hz (by decide)
  · exact opcode_or_low_operand 0xFFFF#32 hbits hz (by decide) (by decide)

/-- A word that decodes to a command is the word of that command. -/
theorem encode_of_decode {w : CmdWord} {i : Instr} (h : decode w = .command i) : encode i = w := by
  obtain ⟨hn, ⟨hop, hz⟩, hi⟩ := eq_rowCommand_of_decode h
  rw [hi, encode_rowCommand hn hop hz]

/-- Settles O2: the decoder reads every bit of a legal word, and refuses SEED 0. -/
theorem encodeOfDecodeIsTheWord : Obligations.EncodeOfDecodeIsTheWord :=
  fun _ _ h => ⟨encode_of_decode h, wellFormed_of_decode h⟩

/-- Settles O5: each word is the word of its command. -/
theorem sampleWordsDecodeAsTheFormatsSay : Obligations.SampleWordsDecodeAsTheFormatsSay :=
  ⟨decode_encode (i := .enc 0x242) rfl, decode_encode (i := .dec 0x2418) rfl, decode_encode (i := .pkpush 0x48) rfl,
    decode_encode (i := .pkflush) rfl, decode_encode (i := .upstart 5) rfl, decode_encode (i := .uppush 0x4F0) rfl,
    decode_encode (i := .inj 0x2410 1000) rfl, decode_encode (i := .dropq 1000) rfl, decode_encode (i := .seed 1) rfl⟩

end Sys2Proof.Machine
end

section
/-! The step of `LFSR16` as a map (R134), and the draws as the first rounds accepted (R135, R136). -/

namespace Sys2Proof.Machine

/-- The step is one to one: it keeps bits 15 to 1, and bit 0 is the new top bit less the other taps (R134). -/
theorem lfsrStep_injective : Function.Injective lfsrStep := by
  intro a b hab
  have hkept : ∀ i < 15, a.getLsbD (i + 1) = b.getLsbD (i + 1) := by
    intro i hi
    rw [← lfsrStep_getLsbD_of_lt hi, hab, lfsrStep_getLsbD_of_lt hi]
  have hlost : a.getLsbD 0 = b.getLsbD 0 := by
    have htop : (lfsrStep a).getLsbD 15 = (lfsrStep b).getLsbD 15 := by rw [hab]
    rw [lfsrStep_getLsbD_top, lfsrStep_getLsbD_top, hkept 1 (by decide), hkept 2 (by decide), hkept 4 (by decide)] at htop
    simpa only [Bool.xor_right_inj, Bool.xor_left_inj] using htop
  apply BitVec.eq_of_getLsbD_eq
  intro i hi
  cases i with
  | zero => exact hlost
  | succ i => exact hkept i (by omega)

theorem lfsrStep_zero : lfsrStep 0 = 0 := by decide

theorem lfsrStep_ne_zero {s : LfsrWord} (h : s ≠ 0) : lfsrStep s ≠ 0 :=
  fun h0 => h (lfsrStep_injective (h0.trans lfsrStep_zero.symm))

theorem lfsrStepN_ne_zero {s : LfsrWord} (h : s ≠ 0) (n : Nat) : lfsrStepN s n ≠ 0 := by
  induction n generalizing s with
  | zero => exact h
  | succ n ih => exact ih (lfsrStep_ne_zero h)

/-- Settles O42, from the bits of the step. -/
theorem lfsrStepShiftsInTheTapSum : Obligations.LfsrStepShiftsInTheTapSum :=
  ⟨fun s => ⟨fun _ hi => lfsrStep_getLsbD_of_lt hi s, lfsrStep_getLsbD_top s⟩, fun _ _ => (lfsrStep_injective ·),
    lfsrStep_zero, fun _ => lfsrStep_ne_zero⟩

/-- A draw is its last round, and every round before that one was rejected. -/
theorem drawUntil_eq_drawRound (bits limit more : Nat) (s : LfsrWord) :
    ∃ k ≤ more, drawUntil bits limit more s = drawRound bits (lfsrStepN s (bits * k)) ∧
      ∀ j < k, limit ≤ (drawRound bits (lfsrStepN s (bits * j))).1 := by
  induction more generalizing s with
  | zero => exact ⟨0, Nat.le_refl 0, rfl, fun j hj => absurd hj (Nat.not_lt_zero j)⟩
  | succ more ih =>
    by_cases hfirst : (drawRound bits s).1 < limit
    case pos => exact ⟨0, Nat.zero_le _, drawUntil_accept _ hfirst, fun j hj => absurd hj (Nat.not_lt_zero j)⟩
    case neg =>
      obtain ⟨k, hk, hlast, hbefore⟩ := ih (lfsrStepN s bits)
      have hshift : ∀ j, lfsrStepN (lfsrStepN s bits) (bits * j) = lfsrStepN s (bits * (j + 1)) := fun j => by
        rw [← lfsrStepN_add, Nat.mul_succ, Nat.add_comm]
      refine ⟨k + 1, Nat.succ_le_succ hk, ?_, fun j hj => ?_⟩
      · rw [drawUntil_reject more hfirst, drawRound_eq, hlast, hshift]
      · cases j with
        | zero => exact Nat.not_lt.mp hfirst
        | succ j => rw [← hshift]; exact hbefore j (Nat.lt_of_succ_lt_succ hj)

/-- A draw leaves a state that its source comes to. -/
theorem drawUntil_snd (bits limit more : Nat) (s : LfsrWord) :
    ∃ n, (drawUntil bits limit more s).2 = lfsrStepN s n := by
  obtain ⟨k, -, hlast, -⟩ := drawUntil_eq_drawRound bits limit more s
  exact ⟨bits * k + bits, by rw [hlast, lfsrStepN_add]; rfl⟩

/-- A draw leaves a non-zero source non-zero (R26). -/
theorem drawUntil_snd_ne_zero (bits limit more : Nat) {s : LfsrWord} (h : s ≠ 0) : (drawUntil bits limit more s).2 ≠ 0 := by
  obtain ⟨n, hn⟩ := drawUntil_snd bits limit more s
  rw [hn]
  exact lfsrStepN_ne_zero h n

/-- The same, rounds counted from 1 and each given by the state it leaves. -/
theorem drawUntil_eq_first_accepted (bits limit more : Nat) (s : LfsrWord) :
    ∃ k, 1 ≤ k ∧ k ≤ more + 1 ∧
      drawUntil bits limit more s =
        ((slice (lfsrStepN s (bits * k)) (16 - bits) bits).toNat, lfsrStepN s (bits * k)) ∧
      ∀ j, 1 ≤ j → j < k → limit ≤ (slice (lfsrStepN s (bits * j)) (16 - bits) bits).toNat := by
  obtain ⟨k, hk, hlast, hbefore⟩ := drawUntil_eq_drawRound bits limit more s
  have hround : ∀ j, drawRound bits (lfsrStepN s (bits * j)) =
      ((slice (lfsrStepN s (bits * (j + 1))) (16 - bits) bits).toNat, lfsrStepN s (bits * (j + 1))) := fun j => by
    rw [drawRound_eq, ← lfsrStepN_add, Nat.mul_succ]
  refine ⟨k + 1, Nat.succ_pos k, Nat.succ_le_succ hk, hlast.trans (hround k), fun j h1 hj => ?_⟩
  obtain ⟨i, rfl⟩ := Nat.exists_eq_add_of_le' h1
  have hrejected := hbefore i (Nat.lt_of_succ_lt_succ hj)
  rwa [hround] at hrejected

/-- Settles O44: the draw is its first accepted round, and it is in range. -/
theorem draw1000IsTheFirstAcceptedRound : Obligations.Draw1000IsTheFirstAcceptedRound := by
  intro s
  obtain ⟨k, h1, h3, hdraw, hbefore⟩ := drawUntil_eq_first_accepted 10 1000 2 s
  exact ⟨k, h1, h3, hdraw, lfsrDraw1000_lt s, hbefore⟩

/-- Settles O45: the draw is its first accepted round, and it is in range. -/
theorem draw15IsTheFirstAcceptedRound : Obligations.Draw15IsTheFirstAcceptedRound := by
  intro s
  obtain ⟨k, h1, h5, hdraw, hbefore⟩ := drawUntil_eq_first_accepted 4 15 4 s
  exact ⟨k, h1, h5, hdraw, lfsrDraw15_lt s, hbefore⟩

/-- Settles O46, by running the draws of the two sequences. -/
theorem drawSequencesFromReset : Obligations.DrawSequencesFromReset := by
  constructor
  · decide
  · decide

end Sys2Proof.Machine
end

section
/-! A command touches the registers of one unit (R32): it neither reads nor writes those of another. From this follow what
each command leaves unchanged, and that words of disjoint units commute (R49). -/

namespace Sys2Proof.Machine

/-- Two words' units share no register: one touches none, or they differ. -/
def DisjointUnits (u v : Option Claim.BlockUnit) : Prop := u = none ∨ v = none ∨ u ≠ v

theorem DisjointUnits.symm {u v : Option Claim.BlockUnit} (h : DisjointUnits u v) : DisjointUnits v u := by
  rcases h with hu | hv | hne
  · exact .inr (.inl hu)
  · exact .inl hv
  · exact .inr (.inr hne.symm)

theorem not_disjointUnits_self (u : Claim.BlockUnit) : ¬ DisjointUnits (some u) (some u) := by
  simp [DisjointUnits]

/-- The registers `g` with those of one unit taken from `h`. -/
def copyUnit (u : Option Claim.BlockUnit) (h g : Registers) : Registers :=
  match u with
  | none => g
  | some .packer => { g with pkAcc := h.pkAcc, pkCnt := h.pkCnt }
  | some .unpacker => { g with upAcc := h.upAcc, upCnt := h.upCnt, upRem := h.upRem }
  | some .source => { g with lfsr := h.lfsr }

/-- `STATUS` is no unit's, and the registers of the other units stay. -/
@[simp] theorem copyUnit_statusIll (u : Option Claim.BlockUnit) (h g : Registers) :
    (copyUnit u h g).statusIll = g.statusIll := by
  match u with
  | none | some .packer | some .unpacker | some .source => rfl

@[simp] theorem copyUnit_unpacker_lfsr (h g : Registers) : (copyUnit (some .unpacker) h g).lfsr = g.lfsr := rfl

theorem copyUnit_unpacker_packerEmpty_iff (h g : Registers) :
    (copyUnit (some .unpacker) h g).PackerEmpty ↔ g.PackerEmpty := Iff.rfl

theorem copyUnit_comm {u v : Option Claim.BlockUnit} (huv : DisjointUnits u v) (a b g : Registers) :
    copyUnit u a (copyUnit v b g) = copyUnit v b (copyUnit u a g) := by
  match u, v with
  | none, _ | _, none => rfl
  | some .packer, some .unpacker | some .packer, some .source | some .unpacker, some .packer
  | some .unpacker, some .source | some .source, some .packer | some .source, some .unpacker => rfl
  | some .packer, some .packer | some .unpacker, some .unpacker | some .source, some .source =>
    exact absurd huv (not_disjointUnits_self _)

/-- A well-formed command writes the registers of its own unit alone (R32). -/
theorem effect_writes_own_unit {i : Instr} (hwf : i.wellFormed = true) (g : Registers) :
    (effect i g).1 = copyUnit (Claim.unitOf i) (effect i g).1 g := by
  cases i with
  | pkpush b =>
    rcases Nat.lt_or_ge g.pkCnt.toNat 3 with hkeep | hemit
    · rw [effect_pkpush_keep b g hkeep]; rfl
    · rw [effect_pkpush_emit b g hemit]; rfl
  | pkflush =>
    rcases Nat.eq_zero_or_pos g.pkCnt.toNat with hnone | hemit
    · rw [effect_pkflush_none g hnone]; rfl
    · rw [effect_pkflush_emit g hemit]; rfl
  | seed v =>
    have hv : v ≠ 0 := by simpa [Instr.wellFormed] using hwf
    rw [effect_seed v g hv]; rfl
  | enc _ | dec _ | upstart _ | uppush _ | inj _ _ | dropq _ => rfl

/-- A command does not see the registers of another unit: changed before it, they are so after it, and all else is as if they
were not (R32). -/
theorem effect_copyUnit {i : Instr} {u : Option Claim.BlockUnit} (hu : DisjointUnits (Claim.unitOf i) u)
    (h g : Registers) : effect i (copyUnit u h g) = (copyUnit u h (effect i g).1, (effect i g).2) := by
  cases i with
  | enc _ | dec _ => match u with
    | none | some .packer | some .unpacker | some .source => rfl
  | pkpush b => match u with
    | some .packer => exact absurd hu (not_disjointUnits_self _)
    | none => rfl
    | some .unpacker | some .source =>
      rcases Nat.lt_or_ge g.pkCnt.toNat 3 with hkeep | hemit
      · rw [effect_pkpush_keep b g hkeep]; exact effect_pkpush_keep b _ hkeep
      · rw [effect_pkpush_emit b g hemit]; exact effect_pkpush_emit b _ hemit
  | pkflush => match u with
    | some .packer => exact absurd hu (not_disjointUnits_self _)
    | none => rfl
    | some .unpacker | some .source =>
      rcases Nat.eq_zero_or_pos g.pkCnt.toNat with hnone | hemit
      · rw [effect_pkflush_none g hnone]; exact effect_pkflush_none _ hnone
      · rw [effect_pkflush_emit g hemit]; exact effect_pkflush_emit _ hemit
  | upstart _ | uppush _ => match u with
    | some .unpacker => exact absurd hu (not_disjointUnits_self _)
    | none | some .packer | some .source => rfl
  | inj _ _ | dropq _ => match u with
    | some .source => exact absurd hu (not_disjointUnits_self _)
    | none | some .packer | some .unpacker => rfl
  | seed v => match u with
    | some .source => exact absurd hu (not_disjointUnits_self _)
    | none => rfl
    | some .packer | some .unpacker =>
      by_cases hv : v = 0
      case pos => rw [hv, effect_seed_zero, effect_seed_zero]; rfl
      case neg => rw [effect_seed v g hv, effect_seed v (copyUnit _ h g) hv]; rfl

/-- After a command of a disjoint unit a command does what it would have done before it, on its own unit's registers. -/
theorem effect_after_effect {i j : Instr} (hi : i.wellFormed = true)
    (hij : DisjointUnits (Claim.unitOf i) (Claim.unitOf j)) (g : Registers) :
    effect j (effect i g).1 = (copyUnit (Claim.unitOf i) (effect i g).1 (effect j g).1, (effect j g).2) := by
  calc effect j (effect i g).1 = effect j (copyUnit (Claim.unitOf i) (effect i g).1 g) := by
        rw [← effect_writes_own_unit hi g]
    _ = _ := effect_copyUnit hij.symm _ _

/-- Commands of disjoint units leave the same registers in either order. -/
theorem effect_comm_regs {i j : Instr} (hi : i.wellFormed = true) (hj : j.wellFormed = true)
    (hij : DisjointUnits (Claim.unitOf i) (Claim.unitOf j)) (g : Registers) :
    (effect j (effect i g).1).1 = (effect i (effect j g).1).1 := by
  rw [effect_after_effect hi hij, effect_after_effect hj hij.symm]
  calc copyUnit (Claim.unitOf i) (effect i g).1 (effect j g).1
      = copyUnit (Claim.unitOf i) (effect i g).1 (copyUnit (Claim.unitOf j) (effect j g).1 g) := by
        rw [← effect_writes_own_unit hj g]
    _ = copyUnit (Claim.unitOf j) (effect j g).1 (copyUnit (Claim.unitOf i) (effect i g).1 g) := copyUnit_comm hij _ _ _
    _ = copyUnit (Claim.unitOf j) (effect j g).1 (effect i g).1 := by rw [← effect_writes_own_unit hi g]

/-- The effects of two words commute: the same registers in either order, and each the same response, `ill_sticky` aside. -/
def WordsCommute (v w : CmdWord) (g : Registers) : Prop :=
  (wordEffect w (wordEffect v g).1).1 = (wordEffect v (wordEffect w g).1).1 ∧
    Claim.noSticky (wordEffect v g).2 = Claim.noSticky (wordEffect v (wordEffect w g).1).2 ∧
    Claim.noSticky (wordEffect w g).2 = Claim.noSticky (wordEffect w (wordEffect v g).1).2

theorem WordsCommute.symm {v w : CmdWord} {g : Registers} (h : WordsCommute v w g) : WordsCommute w v g := by
  obtain ⟨hregs, hv, hw⟩ := h
  exact ⟨hregs.symm, hw, hv⟩

/-- An illegal word commutes with every word: it sets `STATUS.ILL` and no more, which shows in `ill_sticky` alone
(R193, R194). -/
theorem wordsCommute_of_illegal {v : CmdWord} {f : FaultCode} (hv : decode v = .illegal f) (w : CmdWord) (g : Registers) :
    WordsCommute v w g := by
  have hfault : ∀ g : Registers, wordEffect v g =
      (g.withIll, { Response.blank with fault := f.code, illSticky := true }) := wordEffect_illegal hv
  simp only [WordsCommute, hfault, wordEffect_withIll, Response.noSticky_withIllSticky, and_self]

theorem unitOfWord_command {w : CmdWord} {i : Instr} (h : decode w = .command i) :
    Claim.unitOfWord w = Claim.unitOf i := by
  simp [Claim.unitOfWord, h, Decoded.instr?]

/-- Legal words of disjoint units do not see each other: each has the same response before and after the other. -/
theorem wordEffect_snd_after_legal {v w : CmdWord} (hv : Claim.legal v) (hw : Claim.legal w)
    (hvw : DisjointUnits (Claim.unitOfWord v) (Claim.unitOfWord w)) (g : Registers) :
    (wordEffect w (wordEffect v g).1).2 = (wordEffect w g).2 := by
  obtain ⟨i, hi⟩ := hv
  obtain ⟨j, hj⟩ := hw
  rw [unitOfWord_command hi, unitOfWord_command hj] at hvw
  rw [wordEffect_command hi, wordEffect_command hj, wordEffect_command hj,
    effect_after_effect (wellFormed_of_decode hi) hvw]

/-- Words of disjoint units commute (R49). -/
theorem wordsCommute_of_disjoint {v w : CmdWord} (hvw : DisjointUnits (Claim.unitOfWord v) (Claim.unitOfWord w))
    (g : Registers) : WordsCommute v w g := by
  cases hv : decode v with
  | illegal f => exact wordsCommute_of_illegal hv w g
  | command i =>
    cases hw : decode w with
    | illegal f => exact (wordsCommute_of_illegal hw v g).symm
    | command j =>
      have hlegal := wordEffect_snd_after_legal ⟨j, hw⟩ ⟨i, hv⟩ hvw.symm g
      have hlegal' := wordEffect_snd_after_legal ⟨i, hv⟩ ⟨j, hw⟩ hvw g
      refine ⟨?_, by rw [hlegal], by rw [hlegal']⟩
      rw [unitOfWord_command hv, unitOfWord_command hw] at hvw
      simp only [wordEffect_command hv, wordEffect_command hw]
      exact effect_comm_regs (wellFormed_of_decode hv) (wellFormed_of_decode hw) hvw g

/-- Settles O17: a command answers with its effect, which writes its own unit's registers alone. -/
theorem commandsWriteOnlyTheirOwnRegisters : Obligations.CommandsWriteOnlyTheirOwnRegisters := by
  intro i s hwf
  have hframe := effect_writes_own_unit hwf s.regs
  refine ⟨_, _, exec_eq_after i s, ?_⟩
  cases i with
  | enc _ | dec _ | pkpush _ | pkflush | upstart _ | uppush _ | inj _ _ | dropq _ | seed _ => exact hframe

/-- Settles O18, from the commuting effects of the two words. -/
theorem wordsOfDisjointUnitsCommute : Obligations.WordsOfDisjointUnitsCommute := by
  intro v w s hvw v1 w2 w1 v2
  obtain ⟨hregs, hv, hw⟩ := wordsCommute_of_disjoint hvw s.regs
  simp only [v1, w2, w1, v2, issue_eq, State.after_regs]
  exact ⟨hregs, hv, hw, fun hlv hlw =>
    ⟨(wordEffect_snd_after_legal hlw hlv (DisjointUnits.symm hvw) s.regs).symm,
      (wordEffect_snd_after_legal hlv hlw hvw s.regs).symm⟩⟩

end Sys2Proof.Machine
end

section
/-! The invariants of the registers (R23, R24, R26): they hold at reset, and every command, every word and every step keeps
them. -/

namespace Sys2Proof.Machine

/-- PKPUSH keeps the packer's invariant: the bits kept are the count's newest (R23, R102). -/
theorem effect_pkpush_packerOk (b : Byte) {g : Registers} (hg : g.PackerOk) : (effect (.pkpush b) g).1.PackerOk := by
  obtain ⟨hcnt, hacc⟩ := hg
  rcases Nat.lt_or_ge g.pkCnt.toNat 3 with hkeep | hemit
  · have hcnt' : (BitVec.ofNat 4 (g.pkCnt.toNat + 8)).toNat = g.pkCnt.toNat + 8 := by
      rw [BitVec.toNat_ofNat, Nat.mod_eq_of_lt (by omega)]
    have hwindow : (packWindow g.pkAcc b).toNat < 2 ^ (g.pkCnt.toNat + 8) := by
      have hb : b.toNat < 256 := b.isLt
      rw [packWindow_toNat, Nat.pow_add]
      omega
    rw [effect_pkpush_keep b g hkeep]
    refine ⟨by rw [hcnt']; omega, ?_⟩
    rw [hcnt', slice_toNat, Nat.pow_zero, Nat.div_one]
    exact (Nat.mod_le _ _).trans_lt hwindow
  · have hcnt' : (BitVec.ofNat 4 (g.pkCnt.toNat + 8 - 11)).toNat = g.pkCnt.toNat + 8 - 11 := by
      rw [BitVec.toNat_ofNat, Nat.mod_eq_of_lt (by omega)]
    rw [effect_pkpush_emit b g hemit]
    refine ⟨by rw [hcnt']; omega, ?_⟩
    rw [hcnt', lowBits_setWidth_toNat _ (by omega) (by omega)]
    exact Nat.mod_lt _ (Nat.two_pow_pos _)

/-- PKFLUSH empties the packer, whatever it held (R104). -/
theorem effect_pkflush_fst (g : Registers) : (effect .pkflush g).1 = { g with pkAcc := 0, pkCnt := 0 } := by
  rcases Nat.eq_zero_or_pos g.pkCnt.toNat with hnone | hemit
  · rw [effect_pkflush_none g hnone]
  · rw [effect_pkflush_emit g hemit]

/-- UPPUSH leaves as many bits as its count says, from any state (R24, R106). -/
theorem effect_uppush_unpackerOk (d : Block) (g : Registers) : (effect (.uppush d) g).1.UnpackerOk := by
  have hcnt : g.upCnt.toNat < 8 := g.upCnt.isLt
  have hrest : g.upCnt.toNat + 11 - 8 * ((g.upCnt.toNat + 11) / 8) < 8 := by omega
  rw [effect_uppush]
  show BitVec.toNat _ < 2 ^ BitVec.toNat _
  rw [BitVec.toNat_ofNat, Nat.mod_eq_of_lt (by omega), lowBits_setWidth_toNat _ (by omega) (by omega)]
  exact Nat.mod_lt _ (Nat.two_pow_pos _)

/-- An injection makes one draw or two, and leaves a non-zero source non-zero. -/
theorem injectBitError_snd_ne_zero (c : Codeword) (p : Prob) {s : LfsrWord} (h : s ≠ 0) :
    (injectBitError lfsr16 c p s).2 ≠ 0 := by
  by_cases hlt : (lfsrDraw1000 s).1 < p.toNat
  case pos =>
    rw [injectBitError_of_lt lfsr16 c p s hlt]
    exact drawUntil_snd_ne_zero 4 _ 4 (drawUntil_snd_ne_zero 10 _ 2 h)
  case neg =>
    rw [injectBitError_of_not_lt lfsr16 c p s hlt]
    exact drawUntil_snd_ne_zero 10 _ 2 h

/-- A well-formed command keeps the invariants: its own unit's by what it writes there, the others as they were. -/
theorem effect_ok {i : Instr} (hwf : i.wellFormed = true) {g : Registers} (hg : g.Ok) : (effect i g).1.Ok := by
  obtain ⟨hpacker, hunpacker, hsource⟩ := hg
  have hframe := effect_writes_own_unit hwf g
  cases i with
  | enc _ | dec _ => exact ⟨hpacker, hunpacker, hsource⟩
  | pkpush b =>
    have hpacker' := effect_pkpush_packerOk b hpacker
    rw [hframe] at hpacker' ⊢
    exact ⟨hpacker', hunpacker, hsource⟩
  | pkflush =>
    rw [effect_pkflush_fst]
    exact ⟨⟨Nat.zero_le 10, Nat.one_pos⟩, hunpacker, hsource⟩
  | upstart n => exact ⟨hpacker, Nat.one_pos, hsource⟩
  | uppush d => exact ⟨hpacker, effect_uppush_unpackerOk d g, hsource⟩
  | inj c p => exact ⟨hpacker, hunpacker, injectBitError_snd_ne_zero c p hsource⟩
  | dropq p => exact ⟨hpacker, hunpacker, drawUntil_snd_ne_zero 10 _ 2 hsource⟩
  | seed v =>
    have hv : v ≠ 0 := by simpa [Instr.wellFormed] using hwf
    rw [effect_seed v g hv]
    exact ⟨hpacker, hunpacker, hv⟩

theorem wordEffect_ok (w : CmdWord) {g : Registers} (hg : g.Ok) : (wordEffect w g).1.Ok := by
  cases hd : decode w with
  | command i => rw [wordEffect_command hd]; exact effect_ok (wellFormed_of_decode hd) hg
  | illegal f => rw [wordEffect_illegal hd]; exact hg

theorem reset_ok : Registers.reset.Ok := by decide

/-- Settles O16, one case for each thing a step can do. -/
theorem everyStepKeepsTheRegisterInvariants : Obligations.EveryStepKeepsTheRegisterInvariants := by
  intro s t hs hstep
  rcases step_cases s with ⟨-, hidle⟩ | ⟨rest, -, hreset⟩ | ⟨w, rest, -, hword⟩
  · cases hidle.symm.trans hstep
    exact hs
  · cases hreset.symm.trans hstep
    exact reset_ok
  · cases hword.symm.trans hstep
    exact wordEffect_ok w hs

/-- Settles O15. -/
theorem resetMeetsTheRegisterInvariants : Obligations.ResetMeetsTheRegisterInvariants := reset_ok

end Sys2Proof.Machine
end

section
/-! The kinds of step one by one (R47, R200, R210), runs of them, and the commands by which a host sets a unit back. -/

namespace Sys2Proof.Machine

/-- Settles O6: a step with a word next is the word's effect, and a command answers with its effect. -/
theorem stepRunsTheDecodedCommand : Obligations.StepRunsTheDecodedCommand := by
  intro s w rest i hport hd
  rw [step_of_port_command hport, wordEffect_command hd, exec_eq_after]
  rfl

/-- Settles O8: it is the step of a reset event. -/
theorem resetEventLoadsEveryRegister : Obligations.ResetEventLoadsEveryRegister :=
  fun _ _ hport => step_of_port_reset hport

/-- Settles O14: of the three kinds of step only the idle one has no event. -/
theorem idleBlockChangesNothing : Obligations.IdleBlockChangesNothing := by
  intro s hport
  rcases step_cases s with ⟨-, hidle⟩ | ⟨rest, hp, -⟩ | ⟨w, rest, hp, -⟩
  · exact hidle
  · cases hport.symm.trans hp
  · cases hport.symm.trans hp

/-- Settles O11, by induction on the length of the run: every step gives a next state. -/
theorem noRunEverStops : Obligations.NoRunEverStops := by
  intro k
  induction k with
  | zero => exact fun s => ⟨s, rfl⟩
  | succ k ih =>
    intro s
    obtain ⟨t, ht⟩ := ih s.stepped
    exact ⟨t, by rw [run_succ_of_next k (step_eq_next_stepped s), ht]⟩

/-- Settles O10, from the effects of the three commands. -/
theorem boundaryCommandsLeaveTheirUnitAsReset : Obligations.BoundaryCommandsLeaveTheirUnitAsReset := by
  intro s
  refine ⟨⟨_, _, exec_eq_after .pkflush s, ?_, ?_⟩, ⟨_, _, answers_of_effect (effect_upstart 0 s.regs), rfl, rfl, rfl⟩,
    ⟨_, _, answers_of_effect (effect_seed 0xACE1 s.regs (by decide)), rfl⟩⟩
  · rw [effect_pkflush_fst]; rfl
  · rw [effect_pkflush_fst]; rfl

/-- Issuing the word of a well-formed command returns the response of its effect and leaves the registers of its effect. -/
theorem issue_encode {i : Instr} (hwf : i.wellFormed = true) (s : State) :
    issue (encode i) s = ((effect i s.regs).2, s.after (effect i s.regs).1 (effect i s.regs).2) := by
  rw [issue_eq, wordEffect_command (decode_encode hwf)]

/-- Settles O58: it is the effect of PKFLUSH on the registers. -/
theorem abandonedMessageLeavesThePackerEmpty : Obligations.AbandonedMessageLeavesThePackerEmpty := by
  intro s
  rw [abandonMessage, issue_encode rfl, State.after_regs, effect_pkflush_fst]

end Sys2Proof.Machine
end

section
/-! The code as a linear code (R124, R125, R151): a 15-bit word is fixed by its data bits and its syndrome, and is the
exclusive-OR of its single bits. -/

namespace Sys2Proof.Machine

/-- Every bit of a codeword is a data bit or a parity bit (R120, R121). -/
theorem dataBit_or_parityBit : ∀ i < 15, (∃ j < 11, i = Claim.dataBits.getD j 0) ∨ (∃ k < 4, i = 2 ^ k - 1) := by decide

/-- The positions a parity bit covers are data positions (R122). -/
theorem covered_dataBits : ∀ k < 4, ∀ p ∈ (positionsWith k).filter (fun p => p ≠ 2 ^ k),
    ∃ j < 11, p - 1 = Claim.dataBits.getD j 0 := by decide

/-- A word is fixed by its data bits and its syndrome: bit k of the syndrome is the bit at position `2^k` plus data bits. -/
theorem eq_of_dataBits_of_hammingSyndrome {a b : Codeword}
    (hdata : ∀ j < 11, a.getLsbD (Claim.dataBits.getD j 0) = b.getLsbD (Claim.dataBits.getD j 0))
    (hs : hammingSyndrome a = hammingSyndrome b) : a = b := by
  apply BitVec.eq_of_getLsbD_eq
  intro i hi
  rcases dataBit_or_parityBit i hi with ⟨j, hj, rfl⟩ | ⟨k, hk, rfl⟩
  · exact hdata j hj
  · have hsum : xorAt a (positionsWith k) = xorAt b (positionsWith k) := by
      rw [← hammingSyndrome_getLsbD hk, hs, hammingSyndrome_getLsbD hk]
    have hcovered : xorAt a ((positionsWith k).filter (fun p => p ≠ 2 ^ k)) =
        xorAt b ((positionsWith k).filter (fun p => p ≠ 2 ^ k)) := by
      refine xorAt_congr fun p hp => ?_
      obtain ⟨j, hj, hpj⟩ := covered_dataBits k hk p hp
      rw [atPos, atPos, hpj, hdata j hj]
    rw [positionsWith_eq_cons_covered k hk, xorAt_cons, xorAt_cons, hcovered] at hsum
    exact Bool.xor_left_inj.mp hsum

/-- The same with the data bits read off in either order (R152). -/
theorem eq_of_hammingExtract_of_hammingSyndrome {o : DataOrder} {a b : Codeword}
    (he : hammingExtract o a = hammingExtract o b) (hs : hammingSyndrome a = hammingSyndrome b) : a = b := by
  have hascending : hammingExtract .ascending a = hammingExtract .ascending b := by
    rw [← orderBlock_orderBlock o (hammingExtract .ascending a), ← orderBlock_orderBlock o (hammingExtract .ascending b)]
    exact congrArg (orderBlock o) he
  refine eq_of_dataBits_of_hammingSyndrome (fun j hj => ?_) hs
  rw [← hammingExtract_getLsbD hj, hascending, hammingExtract_getLsbD hj]

/-- A word with syndrome 0 is the codeword of its data bits (R125). -/
theorem hammingEncode_hammingExtract {o : DataOrder} {cw : Codeword} (h : hammingSyndrome cw = 0) :
    hammingEncode o (hammingExtract o cw) = cw :=
  eq_of_hammingExtract_of_hammingSyndrome (o := o) (hammingExtract_hammingEncode o _)
    ((hammingSyndrome_hammingEncode o _).trans h.symm)

theorem hammingEncode_injective (o : DataOrder) : Function.Injective (hammingEncode o) :=
  Function.LeftInverse.injective (hammingExtract_hammingEncode o)

/-- Settles O22: a word with syndrome 0 is the codeword of its data bits, and extraction inverts the encoder. -/
theorem syndromeIsZeroExactlyOnCodewords : Obligations.SyndromeIsZeroExactlyOnCodewords := by
  refine fun o => ⟨fun cw => ⟨fun h => ⟨_, hammingEncode_hammingExtract h⟩, ?_⟩, hammingExtract_hammingEncode o,
    fun a b h => hammingEncode_injective o h⟩
  rintro ⟨d, rfl⟩
  exact hammingSyndrome_hammingEncode o d

theorem orderBlock_xor (o : DataOrder) (a b : Block) : orderBlock o (a ^^^ b) = orderBlock o a ^^^ orderBlock o b := by
  cases o with
  | ascending => rfl
  | descending =>
    apply BitVec.eq_of_getLsbD_eq
    intro i hi
    simp only [orderBlock, BitVec.getLsbD_reverse, BitVec.getLsbD_xor, BitVec.getMsbD_xor]

/-- Extraction is linear (R152). -/
theorem hammingExtract_xor (o : DataOrder) (a b : Codeword) :
    hammingExtract o (a ^^^ b) = hammingExtract o a ^^^ hammingExtract o b := by
  have hascending : hammingExtract .ascending (a ^^^ b) = hammingExtract .ascending a ^^^ hammingExtract .ascending b := by
    apply BitVec.eq_of_getLsbD_eq
    intro i hi
    rw [BitVec.getLsbD_xor, hammingExtract_getLsbD hi, hammingExtract_getLsbD hi, hammingExtract_getLsbD hi,
      BitVec.getLsbD_xor]
  calc hammingExtract o (a ^^^ b) = orderBlock o (hammingExtract .ascending (a ^^^ b)) := rfl
    _ = _ := by rw [hascending, orderBlock_xor]; rfl

/-- The encoder is linear (R124): both sides have the same data bits, and syndrome 0. -/
theorem hammingEncode_xor (o : DataOrder) (a b : Block) :
    hammingEncode o (a ^^^ b) = hammingEncode o a ^^^ hammingEncode o b := by
  apply eq_of_hammingExtract_of_hammingSyndrome (o := o)
  · simp only [hammingExtract_xor, hammingExtract_hammingEncode]
  · simp only [hammingSyndrome_xor, hammingSyndrome_hammingEncode, BitVec.xor_self]
    rfl

/-- Settles O21: linearity in general, and the eleven rows by running the encoder on them. -/
theorem encoderIsLinearWithTheGeneratorRows : Obligations.EncoderIsLinearWithTheGeneratorRows := by
  refine ⟨hammingEncode_xor, fun o => ?_, by decide⟩
  have hzero := hammingEncode_xor o 0 0
  rwa [BitVec.xor_self, BitVec.xor_self] at hzero

theorem one_shiftLeft_getLsbD {i j : Nat} (hj : j < 15) : (1#15 <<< i).getLsbD j = decide (j = i) := by
  simpa using xor_one_shiftLeft_getLsbD (e := i) hj 0

/-- The word with the bits of a list flipped from 0, one after another. -/
def wordOfBits (l : List Nat) : Codeword := l.foldr (fun i cw => (1#15 <<< i) ^^^ cw) 0

/-- The bits of a word that are 1, in order. -/
def setBits (cw : Codeword) : List Nat := (List.range 15).filter (fun i => cw.getLsbD i)

theorem ones_eq_length_setBits (cw : Codeword) : Claim.ones cw = (setBits cw).length := rfl

theorem mem_setBits {cw : Codeword} {i : Nat} : i ∈ setBits cw ↔ i < 15 ∧ cw.getLsbD i = true := by simp [setBits]

theorem setBits_nodup (cw : Codeword) : (setBits cw).Nodup := List.nodup_range.filter _

theorem wordOfBits_getLsbD {l : List Nat} (hl : l.Nodup) {j : Nat} (hj : j < 15) :
    (wordOfBits l).getLsbD j = decide (j ∈ l) := by
  induction l with
  | nil => simp [wordOfBits]
  | cons i l ih =>
    obtain ⟨hi, hl⟩ := List.nodup_cons.mp hl
    have hcons : wordOfBits (i :: l) = (1#15 <<< i) ^^^ wordOfBits l := rfl
    rw [hcons, BitVec.getLsbD_xor, one_shiftLeft_getLsbD hj, ih hl]
    by_cases hji : j = i
    case pos => simp [hji, hi]
    case neg => simp [hji]

/-- A word is the exclusive-OR of its bits. -/
theorem wordOfBits_setBits (cw : Codeword) : wordOfBits (setBits cw) = cw := by
  apply BitVec.eq_of_getLsbD_eq
  intro j hj
  rw [wordOfBits_getLsbD (setBits_nodup cw) hj, Bool.eq_iff_iff, decide_eq_true_eq, mem_setBits]
  exact and_iff_right hj

/-- Distinct bits flipped from 0 are the bits that are 1. -/
theorem ones_wordOfBits {l : List Nat} (hl : l.Nodup) (hlt : ∀ i ∈ l, i < 15) : Claim.ones (wordOfBits l) = l.length := by
  refine List.Perm.length_eq ((List.perm_ext_iff_of_nodup (setBits_nodup _) hl).mpr fun i => ?_)
  rw [mem_setBits]
  constructor
  · rintro ⟨hi, hbit⟩
    rwa [wordOfBits_getLsbD hl hi, decide_eq_true_eq] at hbit
  · intro hi
    rw [wordOfBits_getLsbD hl (hlt i hi), decide_eq_true_eq]
    exact ⟨hlt i hi, hi⟩

/-- The syndrome is the exclusive-OR of the positions flipped (R151). -/
theorem hammingSyndrome_wordOfBits {l : List Nat} (hlt : ∀ i ∈ l, i < 15) :
    hammingSyndrome (wordOfBits l) = l.foldr (fun i x => BitVec.ofNat 4 (i + 1) ^^^ x) 0 := by
  induction l with
  | nil => decide
  | cons i l ih =>
    obtain ⟨hi, hl⟩ := List.forall_mem_cons.mp hlt
    calc hammingSyndrome (wordOfBits (i :: l)) = hammingSyndrome (1#15 <<< i) ^^^ hammingSyndrome (wordOfBits l) :=
          hammingSyndrome_xor _ _
      _ = _ := by rw [hammingSyndrome_one_shiftLeft i hi, ih hl]; rfl

/-- The positions that hold 1 are those of the bits that are 1: position p is bit p - 1 (R10). -/
theorem positions_eq_map_setBits (cw : Codeword) :
    (List.range 16).filter (fun p => decide (1 ≤ p) && cw.getLsbD (p - 1)) = (setBits cw).map (· + 1) := by
  rw [List.range_succ_eq_map, List.filter_cons_of_neg (by simp), List.filter_map, setBits]
  congr 1

/-- Accumulating positions from the left or from the right gives the same exclusive-OR. -/
theorem foldl_xor_ofNat (l : List Nat) :
    l.foldl (fun (x : Syndrome) p => x ^^^ BitVec.ofNat 4 p) 0 = l.foldr (fun p x => BitVec.ofNat 4 p ^^^ x) 0 := by
  calc l.foldl (fun (x : Syndrome) p => x ^^^ BitVec.ofNat 4 p) 0
      = (l.map (BitVec.ofNat 4)).foldl (· ^^^ ·) 0 := by rw [List.foldl_map]
    _ = (l.map (BitVec.ofNat 4)).foldr (· ^^^ ·) 0 := List.foldl_eq_foldr
    _ = _ := by rw [List.foldr_map]

/-- Settles O25: the syndrome by R151's lists, by the positions that hold 1, and of a codeword with one bit flipped. -/
theorem syndromeHasItsEqualForms : Obligations.SyndromeHasItsEqualForms := by
  refine ⟨fun cw => ⟨hammingSyndrome_eq_syndromeOf cw, ?_⟩, hammingSyndrome_xor, fun o d p h1 h15 => ?_⟩
  · rw [positions_eq_map_setBits, foldl_xor_ofNat, List.foldr_map,
      ← hammingSyndrome_wordOfBits fun i hi => (mem_setBits.mp hi).1, wordOfBits_setBits]
  · rw [hammingSyndrome_hammingEncode_xor (by omega), Nat.sub_add_cancel h1, BitVec.toNat_ofNat,
      Nat.mod_eq_of_lt (by omega)]

end Sys2Proof.Machine
end

section
/-! Decoding to the nearest codeword (R125, R154 to R158): every word is at most one bit from one codeword, so one error is
undone and two or three are not. -/

namespace Sys2Proof.Machine

/-- The bit that DEC flips for a syndrome; none for 0 (R150). -/
def syndromeBit (s : Syndrome) : Codeword := if s ≠ 0 then 1#15 <<< (s.toNat - 1) else 0

theorem hammingCorrect_eq_xor (cw : Codeword) : hammingCorrect cw = cw ^^^ syndromeBit (hammingSyndrome cw) := by
  by_cases h : hammingSyndrome cw = 0
  · rw [hammingCorrect, syndromeBit, if_neg (not_not.mpr h), if_neg (not_not.mpr h)]
    exact BitVec.xor_zero.symm
  · rw [hammingCorrect, syndromeBit, if_pos h, if_pos h, flipPos]

/-- The bit flipped has the position the syndrome names. -/
theorem hammingSyndrome_syndromeBit : ∀ s : Syndrome, hammingSyndrome (syndromeBit s) = s := by decide

theorem ones_syndromeBit_le : ∀ s : Syndrome, Claim.ones (syndromeBit s) ≤ 1 := by decide

/-- The corrected word is the codeword of the block returned: its syndrome is 0. -/
theorem hammingEncode_hammingDecode (o : DataOrder) (cw : Codeword) :
    hammingEncode o (hammingDecode o cw) = hammingCorrect cw := by
  refine hammingEncode_hammingExtract ?_
  rw [hammingCorrect_eq_xor, hammingSyndrome_xor, hammingSyndrome_syndromeBit, BitVec.xor_self]
  rfl

/-- Any word is at most one bit from the codeword of the block DEC returns for it. -/
theorem ones_hammingEncode_hammingDecode_xor (o : DataOrder) (cw : Codeword) :
    Claim.ones (hammingEncode o (hammingDecode o cw) ^^^ cw) ≤ 1 := by
  rw [hammingEncode_hammingDecode, hammingCorrect_eq_xor, BitVec.xor_comm, ← BitVec.xor_assoc, BitVec.xor_self,
    BitVec.zero_xor]
  exact ones_syndromeBit_le _

/-- A word with at most one bit 1. -/
theorem eq_zero_or_one_shiftLeft {cw : Codeword} (h : Claim.ones cw ≤ 1) : cw = 0 ∨ ∃ i < 15, cw = 1#15 <<< i := by
  have hword := wordOfBits_setBits cw
  rw [ones_eq_length_setBits] at h
  match hbits : setBits cw with
  | [] => exact .inl (by rw [← hword, hbits]; rfl)
  | [i] =>
    have hi : i < 15 := (mem_setBits.mp (hbits ▸ List.mem_singleton_self i)).1
    exact .inr ⟨i, hi, by rw [← hword, hbits]; exact BitVec.xor_zero⟩
  | _ :: _ :: _ => rw [hbits] at h; simp at h

theorem hammingDecode_hammingEncode (o : DataOrder) (d : Block) : hammingDecode o (hammingEncode o d) = d := by
  rw [hammingDecode, hammingCorrect_hammingEncode, hammingExtract_hammingEncode]

theorem hammingDecode_hammingEncode_xor {i : Nat} (hi : i < 15) (o : DataOrder) (d : Block) :
    hammingDecode o (hammingEncode o d ^^^ (1#15 <<< i)) = d := by
  rw [hammingDecode, hammingCorrect_hammingEncode_xor hi, hammingExtract_hammingEncode]

/-- A word at most one bit from a codeword decodes to the block of that codeword (R155). -/
theorem hammingDecode_eq_of_ones_le_one {o : DataOrder} {d : Block} {cw : Codeword}
    (h : Claim.ones (hammingEncode o d ^^^ cw) ≤ 1) : hammingDecode o cw = d := by
  have hcw : cw = hammingEncode o d ^^^ (hammingEncode o d ^^^ cw) := by
    rw [← BitVec.xor_assoc, BitVec.xor_self, BitVec.zero_xor]
  rcases eq_zero_or_one_shiftLeft h with hzero | ⟨i, hi, hone⟩
  · rw [hcw, hzero]
    exact (congrArg _ BitVec.xor_zero).trans (hammingDecode_hammingEncode o d)
  · rw [hcw, hone, hammingDecode_hammingEncode_xor hi]

/-- With two errors or more the block is never the original (R157, R158): the word is too far from the original's
codeword. -/
theorem hammingDecode_ne_of_two_le_ones {o : DataOrder} {d : Block} {e : Codeword} (h : 2 ≤ Claim.ones e) :
    hammingDecode o (hammingEncode o d ^^^ e) ≠ d := by
  intro hd
  have hnear := ones_hammingEncode_hammingDecode_xor o (hammingEncode o d ^^^ e)
  rw [hd, ← BitVec.xor_assoc, BitVec.xor_self, BitVec.zero_xor] at hnear
  omega

/-- Settles O27: the descending placement is the ascending one of the reversed block, and the guarantee holds in both. -/
theorem eitherDataOrderKeepsTheGuarantee : Obligations.EitherDataOrderKeepsTheGuarantee := by
  refine ⟨fun d => ⟨fun i hi => ?_, hammingSyndrome_hammingEncode .descending d⟩,
    fun o d => ⟨hammingDecode_hammingEncode o d, fun i hi => hammingDecode_hammingEncode_xor hi o d⟩⟩
  rw [hammingEncode_getLsbD_dataBits (by omega), orderBlock, BitVec.getLsbD_reverse, BitVec.getMsbD_eq_getLsbD,
    decide_eq_true (by omega), Bool.true_and, show 11 - 1 - (10 - i) = i by omega]

/-- Settles O28: the codeword of the block returned is near, and every near codeword is of that block. -/
theorem decReturnsTheNearestCodewordsBlock : Obligations.DecReturnsTheNearestCodewordsBlock :=
  fun o cw => ⟨ones_hammingEncode_hammingDecode_xor o cw, (hammingEncode_hammingDecode o cw).symm,
    fun _ h => (hammingDecode_eq_of_ones_le_one h).symm⟩

/-- Flipping one of the bits that are 1 leaves one fewer. -/
theorem exists_flip_of_ones_eq_succ {e : Codeword} {n : Nat} (h : Claim.ones e = n + 1) :
    ∃ i < 15, Claim.ones ((1#15 <<< i) ^^^ e) = n := by
  rw [ones_eq_length_setBits] at h
  obtain ⟨i, rest, hbits⟩ := List.exists_cons_of_length_eq_add_one h
  have hlt : ∀ j ∈ i :: rest, j < 15 := fun j hj => (mem_setBits.mp (hbits ▸ hj)).1
  have hnodup : (i :: rest).Nodup := hbits ▸ setBits_nodup e
  obtain ⟨hi, hrest⟩ := List.forall_mem_cons.mp hlt
  have he : e = (1#15 <<< i) ^^^ wordOfBits rest := by
    rw [← wordOfBits_setBits e, hbits]
    rfl
  refine ⟨i, hi, ?_⟩
  rw [he, ← BitVec.xor_assoc, BitVec.xor_self, BitVec.zero_xor, ones_wordOfBits hnodup.of_cons hrest]
  simpa [hbits] using h

/-- Settles O23: two codewords that differ in two bits or fewer would both be near the word half way between them. -/
theorem distinctCodewordsDifferInThreeBits : Obligations.DistinctCodewordsDifferInThreeBits := by
  refine fun o => ⟨fun a b hab => ?_, ?_⟩
  · by_contra hclose
    rcases Nat.lt_or_ge (Claim.ones (hammingEncode o a ^^^ hammingEncode o b)) 2 with hone | htwo
    · exact hab ((hammingDecode_eq_of_ones_le_one (Nat.le_of_lt_succ hone)).symm.trans (hammingDecode_hammingEncode o b))
    · obtain ⟨i, hi, hhalf⟩ := exists_flip_of_ones_eq_succ
        (show Claim.ones (hammingEncode o a ^^^ hammingEncode o b) = 1 + 1 by omega)
      have hb : Claim.ones (hammingEncode o b ^^^ (hammingEncode o a ^^^ (1#15 <<< i))) ≤ 1 := by
        rw [← BitVec.xor_assoc, BitVec.xor_comm (hammingEncode o b), BitVec.xor_comm]
        exact hhalf.le
      exact hab ((hammingDecode_hammingEncode_xor hi o a).symm.trans (hammingDecode_eq_of_ones_le_one hb))
  · cases o with
    | ascending => exact ⟨0, 1, by decide⟩
    | descending => exact ⟨0, 0x400, by decide⟩

/-- The syndrome of a codeword with distinct bits flipped is the exclusive-OR of their positions (R157, R158). -/
theorem hammingSyndrome_hammingEncode_xor_wordOfBits (o : DataOrder) (d : Block) {l : List Nat} (hlt : ∀ i ∈ l, i < 15) :
    hammingSyndrome (hammingEncode o d ^^^ wordOfBits l) = l.foldr (fun i x => BitVec.ofNat 4 (i + 1) ^^^ x) 0 := by
  rw [hammingSyndrome_xor, hammingSyndrome_hammingEncode, hammingSyndrome_wordOfBits hlt]
  exact BitVec.zero_xor

/-- DEC of a codeword with distinct bits flipped, two or more, answers with a wrong block. -/
theorem answers_dec_of_errors (d : Block) (s : State) {l : List Nat} (hl : l.Nodup) (hlt : ∀ i ∈ l, i < 15)
    (htwo : 2 ≤ l.length) {x : Syndrome} (hx : l.foldr (fun i x => BitVec.ofNat 4 (i + 1) ^^^ x) 0 = x) :
    ∃ block : Block, block ≠ d ∧
      Answers (.dec (hammingEncode Config.dataOrder d ^^^ wordOfBits l)) s s.regs
        { Claim.plain s.regs with block := block, corrected := decide (x ≠ 0), syndrome := x } :=
  ⟨_, hammingDecode_ne_of_two_le_ones (by rwa [ones_wordOfBits hl hlt]),
    answers_dec s rfl ((hammingSyndrome_hammingEncode_xor_wordOfBits _ d hlt).trans hx)⟩

/-- A number below 16 is 0 exactly when it is as a syndrome. -/
theorem ofNat_four_ne_zero_iff {n : Nat} (hn : n < 16) : BitVec.ofNat 4 n ≠ 0 ↔ n ≠ 0 := by
  rw [ne_eq, ne_eq, ← BitVec.toNat_inj, BitVec.toNat_ofNat, Nat.mod_eq_of_lt hn]
  rfl

/-- Settles O29: two flipped bits give the exclusive-OR of their positions, which is not 0, and a wrong block. -/
theorem twoErrorsAlwaysGiveAWrongBlock : Obligations.TwoErrorsAlwaysGiveAWrongBlock := by
  intro d s a b ha1 ha15 hb1 hb15 hab
  have hne : a ^^^ b ≠ 0 := fun h => hab (Nat.xor_eq_zero_iff.mp h)
  refine ⟨hne, fun h => ?_, fun h => ?_, ?_⟩
  · have hb : b = 0 := Nat.xor_right_injective (h.trans (Nat.xor_zero a).symm)
    omega
  · have ha : a = 0 := Nat.xor_left_injective (h.trans (Nat.zero_xor b).symm)
    omega
  · have hflips : flipPos (flipPos (hammingEncode Config.dataOrder d) a) b =
        hammingEncode Config.dataOrder d ^^^ wordOfBits [a - 1, b - 1] := by
      simp [flipPos, wordOfBits, BitVec.xor_assoc]
    have hx : [a - 1, b - 1].foldr (fun i x => BitVec.ofNat 4 (i + 1) ^^^ x) 0 = BitVec.ofNat 4 (a ^^^ b) := by
      simp [Nat.sub_add_cancel ha1, Nat.sub_add_cancel hb1, BitVec.ofNat_xor]
    rw [hflips, ← decide_eq_true ((ofNat_four_ne_zero_iff (Nat.xor_lt_two_pow (n := 4) (by omega) (by omega))).mpr hne)]
    exact answers_dec_of_errors d s (by simp; omega) (by simp; omega) (by simp) hx

/-- Settles O30: three flipped bits give the exclusive-OR of their positions and a wrong block. -/
theorem threeErrorsNeverGiveTheOriginal : Obligations.ThreeErrorsNeverGiveTheOriginal := by
  intro d s a b c ha1 ha15 hb1 hb15 hc1 hc15 hab hac hbc
  have hflips : flipPos (flipPos (flipPos (hammingEncode Config.dataOrder d) a) b) c =
      hammingEncode Config.dataOrder d ^^^ wordOfBits [a - 1, b - 1, c - 1] := by
    simp [flipPos, wordOfBits, BitVec.xor_assoc]
  have hx : [a - 1, b - 1, c - 1].foldr (fun i x => BitVec.ofNat 4 (i + 1) ^^^ x) 0 = BitVec.ofNat 4 (a ^^^ b ^^^ c) := by
    simp [Nat.sub_add_cancel ha1, Nat.sub_add_cancel hb1, Nat.sub_add_cancel hc1, BitVec.ofNat_xor, BitVec.xor_assoc]
  have hlt : a ^^^ b ^^^ c < 2 ^ 4 := Nat.xor_lt_two_pow (Nat.xor_lt_two_pow (by omega) (by omega)) (by omega)
  rw [hflips, ← decide_eq_decide.mpr (ofNat_four_ne_zero_iff hlt)]
  exact answers_dec_of_errors d s (by simp; omega) (by simp; omega) (by simp) hx

/-- The data bit at the flipped position is the one in the table's row (R154); a parity position holds none. -/
theorem hammingExtract_syndromeBit :
    ∀ s : Syndrome, hammingExtract .ascending (syndromeBit s) = Claim.changedBits.getD s.toNat 0 := by decide

/-- Settles O31: extraction is linear, so the flipped bit adds the table's row. -/
theorem blockIsUncorrectedDataXorTheSyndromesMask : Obligations.BlockIsUncorrectedDataXorTheSyndromesMask := by
  intro cw
  rw [hammingDecode, hammingCorrect_eq_xor, hammingExtract_xor, hammingExtract_syndromeBit]

end Sys2Proof.Machine
end

section
/-! The period of `LFSR16` (R134). The powers of the step are polynomials in it over the field of two elements, which are
multiplied modulo `x^16 + x^5 + x^3 + x^2 + 1`; so a number of steps is one polynomial, found by repeated squaring. -/

namespace Sys2Proof.Machine

/-- The exclusive-OR of the iterates of `f` at `v` whose numbers, below `n`, are the bits of `c` that are 1. -/
def sumIterates (f : LfsrWord → LfsrWord) (c : LfsrWord) : Nat → LfsrWord → LfsrWord
  | 0, _ => 0
  | n + 1, v => sumIterates f c n v ^^^ (if c.getLsbD n then f^[n] v else 0)

/-- The polynomial `c` in the step, bit i the coefficient of `x^i`, at a state. -/
def lfsrPoly (c s : LfsrWord) : LfsrWord := sumIterates lfsrStep c 16 s

/-- A polynomial times `x`, reduced by `x^16 = x^5 + x^3 + x^2 + 1`, the taps of R134. -/
def polyTimesX (c : LfsrWord) : LfsrWord := (c <<< 1) ^^^ (if c.getLsbD 15 then 0x002D#16 else 0)

/-- The product of two polynomials, reduced. -/
def polyMul (c d : LfsrWord) : LfsrWord := sumIterates polyTimesX c 16 d

/-- `x` to the power that has the given binary digits, the least significant first. -/
def polyPow : List Nat → LfsrWord
  | [] => 1
  | b :: bs => polyTimesX^[b] (polyMul (polyPow bs) (polyPow bs))

/-- A map that respects exclusive-OR and carries one step to another carries the sums of iterates of the one to those of the
other. -/
theorem map_sumIterates {f f' g : LfsrWord → LfsrWord} (hg : ∀ a b, g (a ^^^ b) = g a ^^^ g b)
    (hfg : Function.Semiconj g f f') (c : LfsrWord) (n : Nat) (v : LfsrWord) :
    g (sumIterates f c n v) = sumIterates f' c n (g v) := by
  have hzero : g 0 = 0 := by
    have h := hg 0 0
    rwa [BitVec.xor_self, BitVec.xor_self] at h
  induction n with
  | zero => exact hzero
  | succ n ih =>
    rw [sumIterates, sumIterates, hg, ih]
    split
    case isTrue => rw [(hfg.iterate_right n).eq]
    case isFalse => rw [hzero]

/-- A term taken by the exclusive-OR of two coefficients is there once, or twice and so not at all. -/
theorem ite_xor (p q : Bool) (t : LfsrWord) :
    (if (p ^^ q) = true then t else 0) = (if p = true then t else 0) ^^^ (if q = true then t else 0) := by
  cases p <;> cases q <;> simp

/-- A sum of iterates is linear in its polynomial. -/
theorem sumIterates_xor (f : LfsrWord → LfsrWord) (c d : LfsrWord) (n : Nat) (v : LfsrWord) :
    sumIterates f (c ^^^ d) n v = sumIterates f c n v ^^^ sumIterates f d n v := by
  induction n with
  | zero => exact (BitVec.xor_self (x := (0 : LfsrWord))).symm
  | succ n ih =>
    rw [sumIterates, sumIterates, sumIterates, ih, BitVec.getLsbD_xor, ite_xor]
    ac_rfl

/-- Shifting a polynomial up by one applies the step once more. -/
theorem sumIterates_shiftLeft (f : LfsrWord → LfsrWord) (c : LfsrWord) {n : Nat} (hn : n < 16) (v : LfsrWord) :
    sumIterates f (c <<< 1) (n + 1) v = sumIterates f c n (f v) := by
  induction n with
  | zero => simp [sumIterates]
  | succ n ih =>
    have hbit : (c <<< 1).getLsbD (n + 1) = c.getLsbD n := by simp [hn, -BitVec.getLsbD_eq_getElem]
    rw [sumIterates, ih (by omega), hbit, Function.iterate_succ_apply, sumIterates]

theorem lfsrStepN_eq_iterate (s : LfsrWord) (n : Nat) : lfsrStepN s n = lfsrStep^[n] s := by
  induction n generalizing s with
  | zero => rfl
  | succ n ih => rw [lfsrStepN_succ, ih, Function.iterate_succ_apply]

/-- The step is linear (R134). -/
theorem lfsrStep_xor (a b : LfsrWord) : lfsrStep (a ^^^ b) = lfsrStep a ^^^ lfsrStep b := by
  apply BitVec.eq_of_getLsbD_eq
  intro i hi
  rw [BitVec.getLsbD_xor]
  rcases Nat.lt_or_ge i 15 with hlow | htop
  · simp only [lfsrStep_getLsbD_of_lt hlow, BitVec.getLsbD_xor]
  · rw [show i = 15 by omega]
    simp only [lfsrStep_getLsbD_top, BitVec.getLsbD_xor, Bool.xor_assoc, Bool.xor_left_comm]

/-- Sixteen steps by the taps (R134): the polynomial `x^5 + x^3 + x^2 + 1` at the state. -/
theorem lfsrPoly_taps (s : LfsrWord) : lfsrPoly 0x002D s = lfsrStepN s 16 := by
  have hsum : lfsrPoly 0x002D s = s ^^^ lfsrStepN s 2 ^^^ lfsrStepN s 3 ^^^ lfsrStepN s 5 := by
    simp [lfsrPoly, sumIterates, lfsrStepN_eq_iterate]
  rw [hsum]
  apply BitVec.eq_of_getLsbD_eq
  intro i hi
  have hnow : s.getLsbD i = lfsrBit s i := by simpa only [lfsrStepN_zero, Nat.zero_add] using lfsrStepN_getLsbD hi s 0
  calc (s ^^^ lfsrStepN s 2 ^^^ lfsrStepN s 3 ^^^ lfsrStepN s 5).getLsbD i
      = (lfsrBit s i ^^ lfsrBit s (i + 2) ^^ lfsrBit s (i + 3) ^^ lfsrBit s (i + 5)) := by
        simp only [BitVec.getLsbD_xor, lfsrStepN_getLsbD hi, hnow, Nat.add_comm i]
    _ = lfsrBit s (i + 16) := (lfsrBit_add_sixteen s i).symm
    _ = (lfsrStepN s 16).getLsbD i := by rw [lfsrStepN_getLsbD hi, Nat.add_comm]

/-- The step commutes with every polynomial in it. -/
theorem lfsrStep_lfsrPoly (c s : LfsrWord) : lfsrStep (lfsrPoly c s) = lfsrPoly c (lfsrStep s) :=
  map_sumIterates lfsrStep_xor (fun _ => rfl) c 16 s

/-- A product by `x` is one more step. -/
theorem lfsrPoly_polyTimesX (c s : LfsrWord) : lfsrPoly (polyTimesX c) s = lfsrStep (lfsrPoly c s) := by
  have htop : lfsrPoly (if c.getLsbD 15 then 0x002D#16 else 0) s =
      if c.getLsbD 15 then lfsrStep^[15] (lfsrStep s) else 0 := by
    split
    case isTrue => exact (lfsrPoly_taps s).trans (lfsrStepN_eq_iterate s 16)
    case isFalse => simp [lfsrPoly, sumIterates]
  calc lfsrPoly (polyTimesX c) s
      = lfsrPoly (c <<< 1) s ^^^ lfsrPoly (if c.getLsbD 15 then 0x002D#16 else 0) s := sumIterates_xor _ _ _ _ _
    _ = sumIterates lfsrStep c 15 (lfsrStep s) ^^^ (if c.getLsbD 15 then lfsrStep^[15] (lfsrStep s) else 0) := by
        rw [htop, lfsrPoly, sumIterates_shiftLeft lfsrStep c (by decide)]
    _ = lfsrPoly c (lfsrStep s) := rfl
    _ = lfsrStep (lfsrPoly c s) := (lfsrStep_lfsrPoly c s).symm

theorem lfsrPoly_semiconj (s : LfsrWord) : Function.Semiconj (fun c => lfsrPoly c s) polyTimesX lfsrStep :=
  fun c => lfsrPoly_polyTimesX c s

/-- A product of polynomials is the one after the other. -/
theorem lfsrPoly_polyMul (c d s : LfsrWord) : lfsrPoly (polyMul c d) s = lfsrPoly c (lfsrPoly d s) :=
  map_sumIterates (fun a b => sumIterates_xor lfsrStep a b 16 s) (lfsrPoly_semiconj s) c 16 d

theorem lfsrPoly_one (s : LfsrWord) : lfsrPoly 1 s = s := by
  simp [lfsrPoly, sumIterates]

/-- A number of steps is the power of `x` with that exponent. -/
theorem lfsrPoly_polyPow (bs : List Nat) (s : LfsrWord) : lfsrPoly (polyPow bs) s = lfsrStepN s (Nat.ofDigits 2 bs) := by
  induction bs generalizing s with
  | nil => exact lfsrPoly_one s
  | cons b bs ih =>
    have hsteps : ∀ c, lfsrPoly (polyTimesX^[b] c) s = lfsrStepN (lfsrPoly c s) b := fun c => by
      rw [lfsrStepN_eq_iterate]
      exact (lfsrPoly_semiconj s).iterate_right b c
    rw [polyPow, hsteps, lfsrPoly_polyMul, ih, ih, ← lfsrStepN_add, ← lfsrStepN_add, Nat.ofDigits_cons]
    congr 1
    omega

/-- No state but 0 comes back after `m` steps when `x^m + 1` has an inverse `q`. -/
theorem lfsrStepN_ne_self {q : LfsrWord} {bs : List Nat} (hq : polyMul q (polyPow bs ^^^ 1) = 1) {s : LfsrWord}
    (hs : s ≠ 0) : lfsrStepN s (Nat.ofDigits 2 bs) ≠ s := by
  intro hback
  have hzero : lfsrPoly (polyPow bs ^^^ 1) s = 0 := by
    calc lfsrPoly (polyPow bs ^^^ 1) s = lfsrPoly (polyPow bs) s ^^^ lfsrPoly 1 s := sumIterates_xor _ _ _ _ _
      _ = 0 := by rw [lfsrPoly_polyPow, hback, lfsrPoly_one]; exact BitVec.xor_self
  have hpoly_zero : lfsrPoly q 0 = 0 :=
    (map_sumIterates (f := id) (g := fun _ => 0) (fun _ _ => BitVec.xor_self.symm) (fun _ => lfsrStep_zero.symm) q 16 0).symm
  apply hs
  calc s = lfsrPoly (polyMul q (polyPow bs ^^^ 1)) s := by rw [hq, lfsrPoly_one]
    _ = 0 := by rw [lfsrPoly_polyMul, hzero, hpoly_zero]

/-- `x^65535 = 1` and, for each prime factor p of 65535, `x^(65535/p) + 1` has an inverse: at most sixteen squarings of 16-bit
words each, which the kernel evaluates. -/
theorem polyPow_full : polyPow (List.replicate 16 1) = 1 := by decide +kernel
theorem polyMul_inverse_3 : polyMul 0xACCA (polyPow [1, 0, 1, 0, 1, 0, 1, 0, 1, 0, 1, 0, 1, 0, 1] ^^^ 1) = 1 := by
  decide +kernel
theorem polyMul_inverse_5 : polyMul 0x3C0F (polyPow [1, 1, 0, 0, 1, 1, 0, 0, 1, 1, 0, 0, 1, 1] ^^^ 1) = 1 := by
  decide +kernel
theorem polyMul_inverse_17 : polyMul 0x7F77 (polyPow [1, 1, 1, 1, 0, 0, 0, 0, 1, 1, 1, 1] ^^^ 1) = 1 := by
  decide +kernel
theorem polyMul_inverse_257 : polyMul 0xAA70 (polyPow [1, 1, 1, 1, 1, 1, 1, 1] ^^^ 1) = 1 := by decide +kernel

theorem lfsrStepN_full (s : LfsrWord) : lfsrStepN s 65535 = s := by
  have h := lfsrPoly_polyPow (List.replicate 16 1) s
  rw [polyPow_full, lfsrPoly_one] at h
  exact h.symm

/-- The prime factors of 65535. -/
theorem prime_dvd_65535 {p : Nat} (hp : p.Prime) (hdvd : p ∣ 65535) : p = 3 ∨ p = 5 ∨ p = 17 ∨ p = 257 := by
  have hfactors : p ∈ Nat.primeFactorsList 65535 := (Nat.mem_primeFactorsList (by decide)).mpr ⟨hp, hdvd⟩
  simpa [show Nat.primeFactorsList 65535 = [3, 5, 17, 257] by simp] using hfactors

theorem lfsrStepN_prime_ne_self {p : Nat} (hp : p.Prime) (hdvd : p ∣ 65535) {s : LfsrWord} (hs : s ≠ 0) :
    lfsrStepN s (65535 / p) ≠ s := by
  rcases prime_dvd_65535 hp hdvd with rfl | rfl | rfl | rfl
  · exact lfsrStepN_ne_self polyMul_inverse_3 hs
  · exact lfsrStepN_ne_self polyMul_inverse_5 hs
  · exact lfsrStepN_ne_self polyMul_inverse_17 hs
  · exact lfsrStepN_ne_self polyMul_inverse_257 hs

/-- A point that comes back after `n` steps, and for no prime factor p of n after `n / p`, has period `n`. -/
theorem minimalPeriod_eq_of_prime_factors {f : LfsrWord → LfsrWord} {s : LfsrWord} {n : Nat}
    (hback : Function.IsPeriodicPt f n s) (hprime : ∀ p : Nat, p.Prime → p ∣ n → ¬ Function.IsPeriodicPt f (n / p) s) :
    Function.minimalPeriod f s = n := by
  obtain ⟨k, hk⟩ := hback.minimalPeriod_dvd
  by_contra hne
  obtain ⟨p, hp, j, hj⟩ := Nat.exists_prime_and_dvd (n := k) (by rintro rfl; exact hne (by rw [hk, Nat.mul_one]))
  have hfactor : n = p * (Function.minimalPeriod f s * j) := by
    rw [Nat.mul_left_comm, ← hj, ← hk]
  refine hprime p hp (Dvd.intro _ hfactor.symm) ?_
  have hdiv : n / p = Function.minimalPeriod f s * j := by
    rw [hfactor]
    exact Nat.mul_div_cancel_left _ hp.pos
  rw [hdiv]
  exact (Function.isPeriodicPt_minimalPeriod f s).mul_const j

/-- Settles O43: every non-zero state has the least period 65535, whose prime factors are ruled out one by one. -/
theorem lfsrHasTheFullPeriod : Obligations.LfsrHasTheFullPeriod := by
  intro s hs
  have hperiodic : ∀ n, Function.IsPeriodicPt lfsrStep n s ↔ lfsrStepN s n = s := fun n => by
    rw [lfsrStepN_eq_iterate]; rfl
  have hperiod : Function.minimalPeriod lfsrStep s = 65535 :=
    minimalPeriod_eq_of_prime_factors ((hperiodic _).mpr (lfsrStepN_full s)) fun p hp hdvd h =>
      lfsrStepN_prime_ne_self hp hdvd hs ((hperiodic _).mp h)
  refine ⟨lfsrStepN_full s, fun n hpos hlt hback => ?_⟩
  have hle := ((hperiodic n).mpr hback).minimalPeriod_le hpos
  omega

end Sys2Proof.Machine
end

section
/-! The channel over any source in range (R130 to R133). -/

namespace Sys2Proof.Machine

/-- A single bit is one of the word's ones. -/
theorem ones_one_shiftLeft : ∀ e < 15, Claim.ones (1#15 <<< e) = 1 := by decide

theorem ones_zero : Claim.ones 0 = 0 := by decide

/-- A word with bits flipped differs from itself in those bits. -/
theorem xor_xor_self (cw e : Codeword) : cw ^^^ e ^^^ cw = e := by
  rw [BitVec.xor_comm, ← BitVec.xor_assoc, BitVec.xor_self, BitVec.zero_xor]

/-- Settles O49: a flip is of the bit drawn, which is in range, and without one the codeword is as it was. -/
theorem oneInjectionFlipsAtMostOneBit : Obligations.OneInjectionFlipsAtMostOneBit := by
  intro σ src cw p r hsrc
  by_cases hlt : (src.draw1000 r).1 < p.toNat
  case pos =>
    obtain ⟨-, hpos⟩ := hsrc (src.draw1000 r).2
    have hlt15 : (src.draw15 (src.draw1000 r).2).1 < 15 := hpos
    have hnat : (BitVec.ofNat 4 (src.draw15 (src.draw1000 r).2).1).toNat = (src.draw15 (src.draw1000 r).2).1 := by
      rw [BitVec.toNat_ofNat, Nat.mod_eq_of_lt (by omega)]
    rw [injectBitError_of_lt src cw p r hlt]
    refine ⟨?_, fun _ => ⟨?_, ?_⟩, nofun⟩
    · rw [xor_xor_self, ones_one_shiftLeft _ hlt15, if_pos rfl]
    · rwa [hnat]
    · rw [hnat]
  case neg =>
    rw [injectBitError_of_not_lt src cw p r hlt]
    refine ⟨?_, nofun, fun _ => rfl⟩
    rw [BitVec.xor_self]
    exact ones_zero

/-- Settles O51: no draw is below 0, and every draw in range is below 1000. -/
theorem probabilityBoundaryHoldsForEverySource : Obligations.ProbabilityBoundaryHoldsForEverySource := by
  intro σ src cw p r hsrc
  refine ⟨?_, fun hp => ?_⟩
  · rintro rfl
    have hnever : ¬ (src.draw1000 r).1 < (0 : Prob).toNat := Nat.not_lt_zero _
    rw [shouldDropMessage_eq, injectBitError_of_not_lt src cw 0 r hnever]
    exact ⟨decide_eq_false hnever, rfl⟩
  · obtain ⟨hrange, -⟩ := hsrc r
    have halways : (src.draw1000 r).1 < p.toNat := Nat.lt_of_lt_of_le hrange hp
    rw [shouldDropMessage_eq, injectBitError_of_lt src cw p r halways]
    exact ⟨decide_eq_true halways, rfl⟩

end Sys2Proof.Machine
end

section
/-! Words that hold the end of a bit string (R42, R102, R106): what the accumulators of the packer and the unpacker hold, how
a window extends it, and how blocks and bytes are cut from it. -/

namespace Sys2Proof.Machine

/-- The low `c` bits of `v` are the newest `c` of the `len` bits of the bit string `f`, the newest lowest. -/
def HoldsNewest {w : Nat} (v : BitVec w) (f : Nat → Bool) (len c : Nat) : Prop :=
  ∀ i < c, v.getLsbD i = f (len - 1 - i)

/-- A value put below another: its bits, and then the other's. -/
theorem shiftLeft_or_getLsbD {m n w i : Nat} (a : BitVec m) (b : BitVec n) (hi : i < w) :
    (a.setWidth w <<< n ||| b.setWidth w).getLsbD i = if i < n then b.getLsbD i else a.getLsbD (i - n) := by
  by_cases hlow : i < n
  · simp [hlow, hi, -BitVec.getLsbD_eq_getElem]
  · have hb : b.getLsbD i = false := BitVec.getLsbD_of_ge b i (by omega)
    simp [hlow, hi, hb, show i - n < w by omega, -BitVec.getLsbD_eq_getElem]

/-- A window holds the end of the string made longer by the value put below. -/
theorem HoldsNewest.window {m n w : Nat} {a : BitVec m} {b : BitVec n} {f f' : Nat → Bool} {len c : Nat}
    (ha : HoldsNewest a f len c) (hc : c ≤ len) (hw : c + n ≤ w) (hold : ∀ t < len, f' t = f t)
    (hnew : ∀ i < n, f' (len + (n - 1 - i)) = b.getLsbD i) :
    HoldsNewest (a.setWidth w <<< n ||| b.setWidth w) f' (len + n) (c + n) := by
  intro i hi
  rw [shiftLeft_or_getLsbD a b (by omega)]
  split
  case isTrue hlow =>
    rw [← hnew i hlow]
    congr 1; omega
  case isFalse hhigh =>
    rw [ha (i - n) (by omega), hold _ (by omega)]
    congr 1; omega

/-- A slice of such a word is a run of the string. -/
theorem HoldsNewest.slice {w : Nat} {v : BitVec w} {f : Nat → Bool} {len c : Nat} (hv : HoldsNewest v f len c)
    {start lo n : Nat} (hlo : lo + n ≤ c) (hstart : start + n + lo = len) :
    slice v lo n = bitsBE n (fun j => f (start + j)) := by
  apply BitVec.eq_of_getLsbD_eq
  intro i hi
  rw [slice_getLsbD, decide_eq_true hi, Bool.true_and, hv (lo + i) (by omega), bitsBE_getLsbD n _ i hi]
  congr 1; omega

/-- The bits kept are still the newest. -/
theorem HoldsNewest.lowBits {w n k : Nat} {v : BitVec w} {f : Nat → Bool} {len c : Nat} (hv : HoldsNewest v f len c)
    (hk : k ≤ c) (hw : k < w) (hn : k ≤ n) : HoldsNewest ((lowBits v k).setWidth n) f len k := by
  intro i hi
  rw [← BitVec.testBit_toNat, lowBits_setWidth_toNat v hw hn, Nat.testBit_mod_two_pow, decide_eq_true hi, Bool.true_and,
    BitVec.testBit_toNat, hv i (by omega)]

end Sys2Proof.Machine
end

section
/-! The packer's commands compute `pack` (R102 to R104, R108). -/

namespace Sys2Proof.Machine

/-- Block `m` of a payload's bit string (R100). -/
def packBlock (B : List Byte) (m : Nat) : Block := bitsBE 11 (fun j => payloadBit B (11 * m + j))

theorem pack_eq_map_packBlock (B : List Byte) : pack B = (List.range (blockCount B.length)).map (packBlock B) := rfl

/-- The blocks that lie whole within the payload. -/
def wholeBlocks (B : List Byte) : List Block := (List.range (8 * B.length / 11)).map (packBlock B)

theorem payloadBit_append_of_lt {B : List Byte} {t : Nat} (b : Byte) (ht : t < 8 * B.length) :
    payloadBit (B ++ [b]) t = payloadBit B t := by
  rw [payloadBit, List.getD_append _ _ _ _ (by omega), payloadBit]

/-- The last byte's bits end the payload's bit string, the least significant last (R42). -/
theorem payloadBit_append_last {i : Nat} (B : List Byte) (b : Byte) (hi : i < 8) :
    payloadBit (B ++ [b]) (8 * B.length + (7 - i)) = b.getLsbD i := by
  rw [payloadBit, List.getD_append_right _ _ _ _ (by omega),
    show (8 * B.length + (7 - i)) / 8 - B.length = 0 by omega, List.getD_cons_zero]
  congr 1; omega

/-- A further byte changes no whole block. -/
theorem packBlock_append {B : List Byte} {m : Nat} (b : Byte) (hm : m < 8 * B.length / 11) :
    packBlock (B ++ [b]) m = packBlock B m := by
  apply BitVec.eq_of_getLsbD_eq
  intro i hi
  rw [packBlock, packBlock, bitsBE_getLsbD 11 _ i hi, bitsBE_getLsbD 11 _ i hi, payloadBit_append_of_lt b (by omega)]

theorem map_packBlock_append (B : List Byte) (b : Byte) :
    (List.range (8 * B.length / 11)).map (packBlock (B ++ [b])) = wholeBlocks B :=
  List.map_congr_left fun _ hm => packBlock_append b (List.mem_range.mp hm)

/-- The packer has taken the payload: it holds the bits that fill no whole block (R23, R103). -/
def PackerHolds (B : List Byte) (g : Registers) : Prop :=
  g.pkCnt.toNat = 8 * B.length % 11 ∧ HoldsNewest g.pkAcc (payloadBit B) (8 * B.length) g.pkCnt.toNat

theorem packerHolds_nil {g : Registers} (h : g.PackerEmpty) : PackerHolds [] g := by
  obtain ⟨hcnt, -⟩ := h
  have hzero : g.pkCnt.toNat = 0 := by rw [hcnt]; rfl
  exact ⟨hzero, fun i hi => absurd hi (by omega)⟩

theorem Response.emittedBlock_of_valid {r : Response} (h : r.blkValid = true) : r.emittedBlock = some r.blk := by
  rw [Response.emittedBlock, if_pos h]

theorem Response.emittedBlock_of_not_valid {r : Response} (h : r.blkValid = false) : r.emittedBlock = none := by
  rw [Response.emittedBlock, if_neg (by rw [h]; decide)]

/-- PKPUSH takes one byte more, and emits a block exactly when the byte completes one (R102). -/
theorem effect_pkpush_packerHolds {B : List Byte} {g : Registers} (h : PackerHolds B g) (b : Byte) :
    PackerHolds (B ++ [b]) (effect (.pkpush b) g).1 ∧
      wholeBlocks (B ++ [b]) = wholeBlocks B ++ (effect (.pkpush b) g).2.emittedBlock.toList := by
  obtain ⟨hcnt, hacc⟩ := h
  have hlen : 8 * (B ++ [b]).length = 8 * B.length + 8 := by simp; omega
  have hwindow : HoldsNewest (packWindow g.pkAcc b) (payloadBit (B ++ [b])) (8 * (B ++ [b]).length) (g.pkCnt.toNat + 8) := by
    rw [hlen]
    exact hacc.window (by omega) (by omega) (fun t ht => payloadBit_append_of_lt b ht)
      (fun i hi => payloadBit_append_last B b hi)
  rcases Nat.lt_or_ge g.pkCnt.toNat 3 with hkeep | hemit
  · rw [effect_pkpush_keep b g hkeep, Response.emittedBlock_of_not_valid rfl]
    have hcnt' : (BitVec.ofNat 4 (g.pkCnt.toNat + 8)).toNat = g.pkCnt.toNat + 8 := by
      rw [BitVec.toNat_ofNat, Nat.mod_eq_of_lt (by omega)]
    refine ⟨⟨by rw [hcnt', hlen]; omega, fun i hi => ?_⟩, ?_⟩
    · rw [hcnt'] at hi
      rw [slice_getLsbD, decide_eq_true (by omega), Bool.true_and, Nat.zero_add, hwindow i hi]
    · rw [wholeBlocks, hlen, show (8 * B.length + 8) / 11 = 8 * B.length / 11 by omega, map_packBlock_append,
        Option.toList_none, List.append_nil]
  · rw [effect_pkpush_emit b g hemit, Response.emittedBlock_of_valid rfl]
    have hcnt' : (BitVec.ofNat 4 (g.pkCnt.toNat + 8 - 11)).toNat = g.pkCnt.toNat + 8 - 11 := by
      rw [BitVec.toNat_ofNat, Nat.mod_eq_of_lt (by omega)]
    refine ⟨⟨by rw [hcnt', hlen]; omega, ?_⟩, ?_⟩
    · rw [hcnt']
      exact hwindow.lowBits (by omega) (by omega) (by omega)
    · have hblock : slice (packWindow g.pkAcc b) (g.pkCnt.toNat + 8 - 11) 11 =
          packBlock (B ++ [b]) (8 * B.length / 11) := hwindow.slice (by omega) (by omega)
      rw [wholeBlocks, hlen, show (8 * B.length + 8) / 11 = 8 * B.length / 11 + 1 by omega, List.range_succ,
        List.map_append, map_packBlock_append, hblock]
      rfl

/-- PKFLUSH emits the block that the payload ends in, when it does not end a block (R104). -/
theorem pack_eq_wholeBlocks_append {B : List Byte} {g : Registers} (h : PackerHolds B g) :
    pack B = wholeBlocks B ++ (effect .pkflush g).2.emittedBlock.toList := by
  obtain ⟨hcnt, hacc⟩ := h
  rw [pack_eq_map_packBlock, blockCount, wholeBlocks]
  rcases Nat.eq_zero_or_pos g.pkCnt.toNat with hnone | hemit
  · rw [effect_pkflush_none g hnone, Response.emittedBlock_of_not_valid rfl,
      show (8 * B.length + 10) / 11 = 8 * B.length / 11 by omega, Option.toList_none, List.append_nil]
  · have hlast : g.pkAcc.setWidth 11 <<< (11 - g.pkCnt.toNat) = packBlock B (8 * B.length / 11) := by
      apply BitVec.eq_of_getLsbD_eq
      intro i hi
      rw [packBlock, bitsBE_getLsbD 11 _ i hi]
      by_cases hpad : i < 11 - g.pkCnt.toNat
      case pos => rw [payloadBit_of_le (by omega)]; simp [hpad]
      case neg =>
        have hbit := hacc (i - (11 - g.pkCnt.toNat)) (by omega)
        simp only [BitVec.getLsbD_shiftLeft, BitVec.getLsbD_setWidth, hi, hpad, decide_true, decide_false, Bool.not_false,
          Bool.true_and, show i - (11 - g.pkCnt.toNat) < 11 by omega, hbit]
        congr 1; omega
    rw [effect_pkflush_emit g hemit, Response.emittedBlock_of_valid rfl, hlast,
      show (8 * B.length + 10) / 11 = 8 * B.length / 11 + 1 by omega, List.range_succ, List.map_append]
    rfl

/-- PKPUSH of every byte of a payload (R103). -/
theorem issueAll_pkpush (P : List Byte) {s : State} (h : s.regs.PackerEmpty) :
    PackerHolds P (issueAll (P.map fun b => encode (.pkpush b)) s).2.regs ∧
      (issueAll (P.map fun b => encode (.pkpush b)) s).1.filterMap Response.emittedBlock = wholeBlocks P := by
  induction P using List.reverseRecOn with
  | nil => exact ⟨packerHolds_nil h, rfl⟩
  | append_singleton P b ih =>
    obtain ⟨hholds, hblocks⟩ := ih
    obtain ⟨hholds', hblocks'⟩ := effect_pkpush_packerHolds hholds b
    rw [List.map_append, issueAll_append, List.map_singleton, issueAll_cons, issueAll_nil, issue_encode rfl]
    refine ⟨hholds', ?_⟩
    rw [List.filterMap_append, hblocks, hblocks', List.filterMap_cons, List.filterMap_nil]
    cases (effect (.pkpush b) _).2.emittedBlock <;> rfl

/-- Settles O36: the packer holds what fills no whole block, and the whole blocks are out. -/
theorem packerCountAfterEveryByte : Obligations.PackerCountAfterEveryByte := by
  intro P s hempty
  obtain ⟨⟨hcnt, -⟩, hblocks⟩ := issueAll_pkpush P hempty
  exact ⟨hcnt, by rw [hblocks]; simp [wholeBlocks]⟩

end Sys2Proof.Machine
end

section
/-! A list of commands of one unit writes that unit's registers alone (R32), and with it what the packer's commands leave
(R108). -/

namespace Sys2Proof.Machine

theorem copyUnit_copyUnit (u : Option Claim.BlockUnit) (a b g : Registers) :
    copyUnit u a (copyUnit u b g) = copyUnit u a g := by
  match u with
  | none | some .packer | some .unpacker | some .source => rfl

theorem copyUnit_self (u : Option Claim.BlockUnit) (g : Registers) : copyUnit u g g = g := by
  match u with
  | none | some .packer | some .unpacker | some .source => rfl

theorem issueAll_writes_own_unit {u : Option Claim.BlockUnit} {is : List Instr}
    (his : ∀ i ∈ is, i.wellFormed = true ∧ Claim.unitOf i = u) (s : State) :
    (issueAll (is.map encode) s).2.regs = copyUnit u (issueAll (is.map encode) s).2.regs s.regs := by
  induction is generalizing s with
  | nil => exact (copyUnit_self u s.regs).symm
  | cons i is ih =>
    obtain ⟨⟨hwf, hunit⟩, hrest⟩ := List.forall_mem_cons.mp his
    have hfirst : (issue (encode i) s).2.regs = copyUnit u (effect i s.regs).1 s.regs := by
      rw [issue_encode hwf, State.after_regs, ← hunit]
      exact effect_writes_own_unit hwf s.regs
    rw [List.map_cons, issueAll_cons]
    calc (issueAll (is.map encode) (issue (encode i) s).2).2.regs
        = copyUnit u _ (issue (encode i) s).2.regs := ih hrest _
      _ = _ := by rw [hfirst, copyUnit_copyUnit]

theorem packWords_eq_map_encode (P : List Byte) :
    packWords P = (P.map Instr.pkpush ++ [Instr.pkflush]).map encode := by simp [packWords]

theorem issueAll_packWords_writes_packer (P : List Byte) (s : State) :
    (issueAll (packWords P) s).2.regs = copyUnit (some .packer) (issueAll (packWords P) s).2.regs s.regs := by
  rw [packWords_eq_map_encode]
  refine issueAll_writes_own_unit (fun i hi => ?_) s
  rcases List.mem_append.mp hi with hpush | hflush
  · obtain ⟨b, -, rfl⟩ := List.mem_map.mp hpush
    exact ⟨rfl, rfl⟩
  · rw [List.mem_singleton.mp hflush]
    exact ⟨rfl, rfl⟩

/-- PKPUSH of every byte and PKFLUSH are PKPUSH of every byte, and then PKFLUSH from there. -/
theorem issueAll_packWords (P : List Byte) (s : State) :
    issueAll (packWords P) s =
      ((issueAll (P.map fun b => encode (.pkpush b)) s).1 ++
          [(effect .pkflush (issueAll (P.map fun b => encode (.pkpush b)) s).2.regs).2],
        (issueAll (P.map fun b => encode (.pkpush b)) s).2.after
          (effect .pkflush (issueAll (P.map fun b => encode (.pkpush b)) s).2.regs).1
          (effect .pkflush (issueAll (P.map fun b => encode (.pkpush b)) s).2.regs).2) := by
  rw [packWords, issueAll_append, issueAll_cons, issueAll_nil, issue_encode rfl]

/-- The packer's commands leave the packer empty. -/
theorem issueAll_packWords_packerEmpty (P : List Byte) (s : State) : (issueAll (packWords P) s).2.regs.PackerEmpty := by
  rw [issueAll_packWords, State.after_regs, effect_pkflush_fst]
  exact ⟨rfl, rfl⟩

/-- Settles O39: the whole blocks come out with the bytes, the last block with the flush, and the packer is empty before and
after. -/
theorem packerCommandsComputePack : Obligations.PackerCommandsComputePack := by
  intro B s hempty
  obtain ⟨hholds, hblocks⟩ := issueAll_pkpush B hempty
  constructor
  · rw [issueAll_packWords, List.filterMap_append, hblocks, pack_eq_wholeBlocks_append hholds, List.filterMap_cons,
      List.filterMap_nil]
    cases (effect .pkflush _).2.emittedBlock <;> rfl
  · obtain ⟨hcnt, hacc⟩ := issueAll_packWords_packerEmpty B s
    obtain ⟨hcnt0, hacc0⟩ := hempty
    calc (issueAll (packWords B) s).2.regs
        = { s.regs with
            pkAcc := (issueAll (packWords B) s).2.regs.pkAcc
            pkCnt := (issueAll (packWords B) s).2.regs.pkCnt } := issueAll_packWords_writes_packer B s
      _ = { s.regs with pkAcc := s.regs.pkAcc, pkCnt := s.regs.pkCnt } := by rw [hcnt, hacc, hcnt0, hacc0]
      _ = s.regs := rfl

end Sys2Proof.Machine
end

section
/-! The unpacker's commands compute `unpack` (R105 to R107, R109), and `unpack` undoes `pack` (R110). -/

namespace Sys2Proof.Machine

/-- Byte `i` of a block sequence's bit string (R101). -/
def unpackByte (K : List Block) (i : Nat) : Byte := bitsBE 8 (fun j => blockBit K (8 * i + j))

theorem unpack_eq_map_unpackByte (K : List Block) (len : Nat) :
    unpack K len = (List.range (min len (11 * K.length / 8))).map (unpackByte K) := rfl

theorem blockBit_append_of_lt {K : List Block} {t : Nat} (d : Block) (ht : t < 11 * K.length) :
    blockBit (K ++ [d]) t = blockBit K t := by
  rw [blockBit, List.getD_append _ _ _ _ (by omega), blockBit]

/-- The last block's bits end the bit string, the least significant last (R44). -/
theorem blockBit_append_last {i : Nat} (K : List Block) (d : Block) (hi : i < 11) :
    blockBit (K ++ [d]) (11 * K.length + (10 - i)) = d.getLsbD i := by
  rw [blockBit, List.getD_append_right _ _ _ _ (by omega),
    show (11 * K.length + (10 - i)) / 11 - K.length = 0 by omega, List.getD_cons_zero]
  congr 1; omega

/-- A further block changes no whole byte. -/
theorem unpackByte_append {K : List Block} {i : Nat} (d : Block) (hi : i < 11 * K.length / 8) :
    unpackByte (K ++ [d]) i = unpackByte K i := by
  apply BitVec.eq_of_getLsbD_eq
  intro b hb
  rw [unpackByte, unpackByte, bitsBE_getLsbD 8 _ b hb, bitsBE_getLsbD 8 _ b hb, blockBit_append_of_lt d (by omega)]

/-- A further block gives the bytes there were, and then those it completes within the length. -/
theorem unpack_append (K : List Block) (d : Block) {len m : Nat}
    (hm : min len (11 * (K ++ [d]).length / 8) = min len (11 * K.length / 8) + m) :
    unpack (K ++ [d]) len =
      unpack K len ++ (List.range m).map (fun j => unpackByte (K ++ [d]) (min len (11 * K.length / 8) + j)) := by
  rw [unpack_eq_map_unpackByte, hm, List.range_add, List.map_append, List.map_map, unpack_eq_map_unpackByte]
  congr 1
  exact List.map_congr_left fun i hi => unpackByte_append d ((List.mem_range.mp hi).trans_le (Nat.min_le_right _ _))

/-- The unpacker has taken the blocks of a message of `len` bytes: it holds the bits that fill no whole byte, and counts the
bytes still to come (R24, R25, R107). -/
def UnpackerHolds (len : Len) (K : List Block) (g : Registers) : Prop :=
  g.upCnt.toNat = 11 * K.length % 8 ∧ HoldsNewest g.upAcc (blockBit K) (11 * K.length) g.upCnt.toNat ∧
    g.upRem.toNat = len.toNat - 11 * K.length / 8

theorem effect_upstart_unpackerHolds (len : Len) (g : Registers) : UnpackerHolds len [] (effect (.upstart len) g).1 :=
  ⟨rfl, fun i hi => absurd hi (Nat.not_lt_zero i), rfl⟩

/-- The bytes of a response that emits `m` of them. -/
theorem Response.emittedBytes_eq {r : Response} {m : Nat} (f : Nat → Byte) (hm : m ≤ 2) (hn : r.nbytes = BitVec.ofNat 2 m)
    (h0 : 1 ≤ m → r.byte0 = f 0) (h1 : m = 2 → r.byte1 = f 1) : r.emittedBytes = (List.range m).map f := by
  rw [Response.emittedBytes, hn]
  interval_cases m
  · rfl
  · rw [h0 (by decide)]; rfl
  · rw [h0 (by decide), h1 rfl]; rfl

/-- UPPUSH takes one block more, and emits the bytes that the block completes within the length (R106). -/
theorem effect_uppush_unpackerHolds {len : Len} {K : List Block} {g : Registers} (h : UnpackerHolds len K g) (d : Block) :
    UnpackerHolds len (K ++ [d]) (effect (.uppush d) g).1 ∧
      unpack (K ++ [d]) len.toNat = unpack K len.toNat ++ (effect (.uppush d) g).2.emittedBytes := by
  obtain ⟨hcnt, hacc, hrem⟩ := h
  have hlen : 11 * (K ++ [d]).length = 11 * K.length + 11 := by simp; omega
  have hwindow : HoldsNewest (unpackWindow g.upAcc d) (blockBit (K ++ [d])) (11 * (K ++ [d]).length)
      (g.upCnt.toNat + 11) := by
    rw [hlen]
    exact hacc.window (by omega) (by omega) (fun t ht => blockBit_append_of_lt d ht)
      (fun i hi => blockBit_append_last K d hi)
  have hbyte : ∀ i lo, lo + 8 ≤ g.upCnt.toNat + 11 → 8 * i + 8 + lo = 11 * (K ++ [d]).length →
      slice (unpackWindow g.upAcc d) lo 8 = unpackByte (K ++ [d]) i := fun i lo hlo hi => hwindow.slice hlo hi
  have hm : bytesEmitted ((g.upCnt.toNat + 11) / 8) g.upRem = min ((g.upCnt.toNat + 11) / 8) g.upRem.toNat := rfl
  have hcnt' : (BitVec.ofNat 3 (g.upCnt.toNat + 11 - 8 * ((g.upCnt.toNat + 11) / 8))).toNat =
      g.upCnt.toNat + 11 - 8 * ((g.upCnt.toNat + 11) / 8) := by
    rw [BitVec.toNat_ofNat, Nat.mod_eq_of_lt (by omega)]
  rw [effect_uppush]
  refine ⟨⟨by rw [hcnt', hlen]; omega, ?_, ?_⟩, ?_⟩
  · rw [hcnt']
    exact hwindow.lowBits (by omega) (by omega) (by omega)
  · rw [sub_bytesEmitted_toNat, hm, hrem, hlen]
    omega
  · rw [unpack_append K d (m := bytesEmitted ((g.upCnt.toNat + 11) / 8) g.upRem) (by omega)]
    congr 1
    refine (Response.emittedBytes_eq _ (by omega) rfl (fun h1 => ?_) (fun h2 => ?_)).symm
    · rw [if_pos h1]
      exact hbyte (min len.toNat (11 * K.length / 8) + 0) _ (by omega) (by omega)
    · rw [if_pos h2, if_pos (show (g.upCnt.toNat + 11) / 8 = 2 by omega)]
      exact hbyte (min len.toNat (11 * K.length / 8) + 1) _ (by omega) (by omega)

/-- UPSTART and UPPUSH of every block (R107). -/
theorem issueAll_unpackWords (len : Len) (K : List Block) (s : State) :
    UnpackerHolds len K (issueAll (unpackWords len K) s).2.regs ∧
      (issueAll (unpackWords len K) s).1.flatMap Response.emittedBytes = unpack K len.toNat := by
  induction K using List.reverseRecOn with
  | nil =>
    rw [unpackWords, List.map_nil, issueAll_cons, issueAll_nil, issue_encode rfl, unpack_eq_map_unpackByte]
    exact ⟨effect_upstart_unpackerHolds len s.regs, by simp [effect_upstart, Response.emittedBytes, Response.blank]⟩
  | append_singleton K d ih =>
    obtain ⟨hholds, hbytes⟩ := ih
    obtain ⟨hholds', hbytes'⟩ := effect_uppush_unpackerHolds hholds d
    have hwords : unpackWords len (K ++ [d]) = unpackWords len K ++ [encode (.uppush d)] := by simp [unpackWords]
    rw [hwords, issueAll_append, issueAll_cons, issueAll_nil, issue_encode rfl]
    exact ⟨hholds', by rw [List.flatMap_append, hbytes, hbytes', List.flatMap_singleton]⟩

theorem issueAll_unpackWords_writes_unpacker (len : Len) (K : List Block) (s : State) :
    (issueAll (unpackWords len K) s).2.regs = copyUnit (some .unpacker) (issueAll (unpackWords len K) s).2.regs s.regs := by
  have hwords : unpackWords len K = (.upstart len :: K.map Instr.uppush).map encode := by simp [unpackWords]
  rw [hwords]
  refine issueAll_writes_own_unit (List.forall_mem_cons.mpr ⟨⟨rfl, rfl⟩, fun i hi => ?_⟩) s
  obtain ⟨d, -, rfl⟩ := List.mem_map.mp hi
  exact ⟨rfl, rfl⟩

/-- Settles O37: the unpacker holds what fills no whole byte, and no command of it writes `STATUS`. -/
theorem unpackerCountAfterEveryBlock : Obligations.UnpackerCountAfterEveryBlock := by
  intro len K s
  obtain ⟨⟨hcnt, -, hrem⟩, hbytes⟩ := issueAll_unpackWords len K s
  refine ⟨hcnt, by rw [hbytes, unpack_length], hrem, ?_⟩
  rw [issueAll_unpackWords_writes_unpacker, copyUnit_statusIll]

/-- Settles O40. -/
theorem unpackerCommandsComputeUnpack : Obligations.UnpackerCommandsComputeUnpack :=
  fun len K s => (issueAll_unpackWords len K s).2

/-- The blocks of `pack` have the payload's bit string, padded (R100, R101). -/
theorem blockBit_pack {B : List Byte} {t : Nat} (ht : t < 11 * (pack B).length) : blockBit (pack B) t = payloadBit B t := by
  rw [blockBit, pack_getD_getLsbD (by omega) (by omega)]
  congr 1; omega

/-- Unpacking with the payload's length cuts off the padding (R110). -/
theorem unpack_pack (B : List Byte) : unpack (pack B) B.length = B := by
  have hroom : B.length ≤ 11 * (pack B).length / 8 := by rw [pack_length, blockCount]; omega
  have hlength : (unpack (pack B) B.length).length = B.length := by rw [unpack_length, Nat.min_eq_left hroom]
  refine List.ext_getElem hlength fun i hi hiB => ?_
  rw [← List.getD_eq_getElem _ 0 hi, ← List.getD_eq_getElem B 0 hiB]
  apply BitVec.eq_of_getLsbD_eq
  intro b hb
  rw [unpack_getD_getLsbD hi hb, blockBit_pack (by omega), payloadBit, show (8 * i + (7 - b)) / 8 = i by omega]
  congr 1; omega

/-- Settles O41. -/
theorem unpackOfPackIsThePayload : Obligations.UnpackOfPackIsThePayload := unpack_pack

end Sys2Proof.Machine
end

section
/-! The host's pipeline (R172, R173, R175, R216, R221): what each stage's commands return and leave, stage by stage. -/

namespace Sys2Proof.Machine

/-- One pass of a codeword through the channel is undone by the decoder, whatever the source draws (R175). -/
theorem hammingDecode_injectBitError {σ : Type} {src : DrawSource σ} (hsrc : src.InRange) (o : DataOrder) (d : Block)
    (p : Prob) (r : σ) : hammingDecode o (injectBitError src (hammingEncode o d) p r).1.cw = d := by
  by_cases hlt : (src.draw1000 r).1 < p.toNat
  case pos =>
    obtain ⟨-, hpos⟩ := hsrc (src.draw1000 r).2
    rw [injectBitError_of_lt src _ p r hlt]
    exact hammingDecode_hammingEncode_xor hpos o d
  case neg =>
    rw [injectBitError_of_not_lt src _ p r hlt]
    exact hammingDecode_hammingEncode o d

/-- Every block of a message comes back from the channel. -/
theorem map_hammingDecode_injectAll {σ : Type} {src : DrawSource σ} (hsrc : src.InRange) (o : DataOrder) (p : Prob)
    (K : List Block) (r : σ) : (injectAll src p (K.map (hammingEncode o)) r).1.map (hammingDecode o) = K := by
  induction K generalizing r with
  | nil => rfl
  | cons d K ih =>
    rw [List.map_cons, injectAll, List.map_cons, ih, hammingDecode_injectBitError hsrc]

/-- Settles O55: the blocks come back, and unpacking them gives the payload. -/
theorem messageIsRecoveredForEverySource : Obligations.MessageIsRecoveredForEverySource := by
  intro σ src o P pl pb r hsrc
  cases hdrop : (shouldDropMessage src pl r).1 with
  | true => simp [processMessage, hdrop]
  | false =>
    simp [processMessage, hdrop, map_hammingDecode_injectAll hsrc, unpack_pack]

/-- Words that change no register: each response is the word's effect on the registers as they are. -/
theorem issueAll_of_regs_unchanged {α : Type} {f : α → CmdWord} (hf : ∀ a g, (wordEffect (f a) g).1 = g) (l : List α)
    (s : State) :
    (issueAll (l.map f) s).1 = l.map (fun a => (wordEffect (f a) s.regs).2) ∧ (issueAll (l.map f) s).2.regs = s.regs := by
  induction l generalizing s with
  | nil => exact ⟨rfl, rfl⟩
  | cons a l ih =>
    have hregs : (issue (f a) s).2.regs = s.regs := by rw [issue_eq, State.after_regs, hf]
    obtain ⟨hresps, hlast⟩ := ih (issue (f a) s).2
    rw [hregs] at hresps hlast
    rw [List.map_cons, List.map_cons, issueAll_cons, hresps, issue_eq]
    rw [issue_eq] at hlast
    exact ⟨rfl, hlast⟩

theorem wordEffect_encode_enc (d : Block) (g : Registers) :
    wordEffect (encode (.enc d)) g =
      (g, { Response.blank with illSticky := g.statusIll, cw := hammingEncode Config.dataOrder d }) := by
  rw [wordEffect_command (decode_encode rfl), effect_enc]

theorem wordEffect_encode_dec (c : Codeword) (g : Registers) :
    wordEffect (encode (.dec c)) g =
      (g, { Response.blank with
        illSticky := g.statusIll
        block := hammingDecode Config.dataOrder c
        corrected := correctedFlag (hammingSyndrome c)
        syndrome := hammingSyndrome c }) := by
  rw [wordEffect_command (decode_encode rfl), effect_dec]

/-- What the words of one stage return, each response read by `f`, and the block after them. -/
def stage {α : Type} (f : Response → α) (ws : List CmdWord) (s : State) : List α × State :=
  ((issueAll ws s).1.map f, (issueAll ws s).2)

/-- ENC of every block (R172). -/
theorem stage_enc (K : List Block) (s : State) :
    ∃ t : State, stage Response.cw (K.map fun d => encode (.enc d)) s = (K.map (hammingEncode Config.dataOrder), t) ∧
      t.regs = s.regs := by
  obtain ⟨hresps, hregs⟩ := issueAll_of_regs_unchanged (f := fun d => encode (.enc d))
    (fun d g => by rw [wordEffect_encode_enc]) K s
  refine ⟨_, Prod.ext ?_ rfl, hregs⟩
  rw [stage, hresps, List.map_map]
  exact List.map_congr_left fun d _ => congrArg (Response.cw ·.2) (wordEffect_encode_enc d s.regs)

/-- DEC of every word (R172). -/
theorem stage_dec (cs : List Codeword) (s : State) :
    ∃ t : State, stage Response.block (cs.map fun c => encode (.dec c)) s = (cs.map (hammingDecode Config.dataOrder), t) ∧
      t.regs = s.regs := by
  obtain ⟨hresps, hregs⟩ := issueAll_of_regs_unchanged (f := fun c => encode (.dec c))
    (fun c g => by rw [wordEffect_encode_dec]) cs s
  refine ⟨_, Prod.ext ?_ rfl, hregs⟩
  rw [stage, hresps, List.map_map]
  exact List.map_congr_left fun c _ => congrArg (Response.block ·.2) (wordEffect_encode_dec c s.regs)

/-- INJ of every codeword: the channel on the whole sequence, its draws in message order (R139, R172). -/
theorem stage_inj (p : Prob) (cs : List Codeword) (s : State) :
    ∃ t : State, stage Response.cw (cs.map fun c => encode (.inj c p)) s = ((injectAll lfsr16 p cs s.regs.lfsr).1, t) ∧
      t.regs = { s.regs with lfsr := (injectAll lfsr16 p cs s.regs.lfsr).2 } := by
  induction cs generalizing s with
  | nil => exact ⟨s, rfl, rfl⟩
  | cons c cs ih =>
    obtain ⟨t, ht, htRegs⟩ := ih (issue (encode (.inj c p)) s).2
    have hfirst : issue (encode (.inj c p)) s = ((effect (.inj c p) s.regs).2, s.after _ _) := issue_encode rfl s
    have hregs : (issue (encode (.inj c p)) s).2.regs =
        { s.regs with lfsr := (injectBitError lfsr16 c p s.regs.lfsr).2 } := by
      rw [hfirst, State.after_regs, effect_inj]
    rw [hregs] at ht htRegs
    refine ⟨t, ?_, htRegs⟩
    obtain ⟨hcws, hlast⟩ := Prod.ext_iff.mp ht
    refine Prod.ext ?_ hlast
    rw [stage, List.map_cons, issueAll_cons, List.map_cons, injectAll]
    exact congrArg₂ List.cons (by rw [hfirst, effect_inj]) hcws

theorem injectAll_length {σ : Type} (src : DrawSource σ) (p : Prob) (cs : List Codeword) (r : σ) :
    (injectAll src p cs r).1.length = cs.length := by
  induction cs generalizing r with
  | nil => rfl
  | cons c cs ih => rw [injectAll, List.length_cons, List.length_cons, ih]

/-- The stages after the drop decision, from the block's state after it (R172). -/
def completedRun (P : List Byte) (pb : Prob) (s : State) : PipelineRun :=
  let pk := issueAll (packWords P) s
  let en := stage Response.cw ((pk.1.filterMap Response.emittedBlock).map fun d => encode (.enc d)) pk.2
  let ch := stage Response.cw (en.1.map fun c => encode (.inj c pb)) en.2
  let de := stage Response.block (ch.1.map fun c => encode (.dec c)) ch.2
  let up := issueAll (unpackWords (BitVec.ofNat 16 P.length) de.1) de.2
  let R := up.1.flatMap Response.emittedBytes
  ⟨.completed R (validate P R), [.received, .encoded, .channelApplied, .decoded, .validated, .reported], up.2⟩

/-- DROPQ as the host issues it: one draw, compared with the loss probability (R133, R216). -/
theorem issue_dropq (p : Prob) (s : State) :
    (issue (encode (.dropq p)) s).1.drop = (shouldDropMessage lfsr16 p s.regs.lfsr).1 ∧
      (issue (encode (.dropq p)) s).2.regs = { s.regs with lfsr := (shouldDropMessage lfsr16 p s.regs.lfsr).2 } ∧
      (issue (encode (.dropq p)) s).2.responses.length = s.responses.length + 1 := by
  rw [issue_encode rfl, effect_dropq]
  exact ⟨rfl, rfl, by rw [State.after_responses, List.length_append, List.length_singleton]⟩

theorem processPayload_of_gt {P : List Byte} (h : 65535 < P.length) (pl pb : Prob) (s : State) :
    processPayload P pl pb s = none := if_pos h

theorem length_le_of_processPayload {P : List Byte} {pl pb : Prob} {s : State} {run : PipelineRun}
    (h : processPayload P pl pb s = some run) : P.length ≤ 65535 := by
  by_contra hlong
  rw [processPayload_of_gt (Nat.lt_of_not_le hlong)] at h
  cases h

/-- The host asks for the drop first; a message that is not dropped goes through all the stages (R172, R216). -/
theorem processPayload_of_le {P : List Byte} (h : P.length ≤ 65535) (pl pb : Prob) (s : State) :
    processPayload P pl pb s = some
      (if (shouldDropMessage lfsr16 pl s.regs.lfsr).1 then
        ⟨.dropped, [.received, .dropped], (issue (encode (.dropq pl)) s).2⟩
      else completedRun P pb (issue (encode (.dropq pl)) s).2) := by
  obtain ⟨hdrop, -⟩ := issue_dropq pl s
  have hle : ¬ Config.maxLen < P.length := Nat.not_lt.mpr h
  rw [processPayload, if_neg hle]
  simp only [hdrop]
  split
  case isTrue => rfl
  case isFalse => simp only [completedRun, stage, List.map_map]; rfl

/-- From an empty packer a message that is not dropped comes to the outcome of ProcessPayload on whole sequences; its
commands write the source, which the channel's draws leave, and the unpacker, which takes the decoded blocks. -/
theorem completedRun_eq {P : List Byte} (hlen : P.length ≤ 65535) (pb : Prob) {s : State} (hempty : s.regs.PackerEmpty)
    {ch : List Codeword × LfsrWord}
    (hch : injectAll lfsr16 pb ((pack P).map (hammingEncode Config.dataOrder)) s.regs.lfsr = ch) :
    (completedRun P pb s).outcome =
        .completed (unpack (ch.1.map (hammingDecode Config.dataOrder)) P.length)
          (validate P (unpack (ch.1.map (hammingDecode Config.dataOrder)) P.length)) ∧
      UnpackerHolds (BitVec.ofNat 16 P.length) (ch.1.map (hammingDecode Config.dataOrder))
        (completedRun P pb s).after.regs ∧
      (completedRun P pb s).after.regs =
        copyUnit (some .unpacker) (completedRun P pb s).after.regs { s.regs with lfsr := ch.2 } := by
  have hlength : (BitVec.ofNat 16 P.length).toNat = P.length := by rw [BitVec.toNat_ofNat, Nat.mod_eq_of_lt (by omega)]
  obtain ⟨hpack, hpackRegs⟩ := packerCommandsComputePack P s hempty
  obtain ⟨t, henc, ht⟩ := stage_enc (pack P) (issueAll (packWords P) s).2
  obtain ⟨u, hinj, hu⟩ := stage_inj pb ((pack P).map (hammingEncode Config.dataOrder)) t
  obtain ⟨v, hdec, hv⟩ := stage_dec ch.1 u
  rw [ht, hpackRegs, hch] at hinj hu
  have hregs : v.regs = { s.regs with lfsr := ch.2 } := hv.trans hu
  obtain ⟨hholds, hbytes⟩ := issueAll_unpackWords (BitVec.ofNat 16 P.length) (ch.1.map (hammingDecode Config.dataOrder)) v
  have hframe := issueAll_unpackWords_writes_unpacker (BitVec.ofNat 16 P.length)
    (ch.1.map (hammingDecode Config.dataOrder)) v
  rw [hlength] at hbytes
  rw [hregs] at hframe
  simp only [completedRun, hpack, henc, hinj, hdec, hbytes]
  exact ⟨trivial, hholds, hframe⟩

/-- A message that the first draw drops ends there (R216). -/
theorem processPayload_of_dropped {P : List Byte} (h : P.length ≤ 65535) {pl : Prob} (pb : Prob) {s : State}
    (hdrop : (shouldDropMessage lfsr16 pl s.regs.lfsr).1 = true) :
    processPayload P pl pb s = some ⟨.dropped, [.received, .dropped], (issue (encode (.dropq pl)) s).2⟩ := by
  rw [processPayload_of_le h, hdrop]
  rfl

/-- A message that is not dropped ends as `completedRun` says, from the state its drop decision leaves. -/
theorem processPayload_of_not_dropped {P : List Byte} (h : P.length ≤ 65535) {pl : Prob} (pb : Prob) {s : State}
    (hdrop : (shouldDropMessage lfsr16 pl s.regs.lfsr).1 = false) :
    processPayload P pl pb s = some (completedRun P pb (issue (encode (.dropq pl)) s).2) := by
  rw [processPayload_of_le h, hdrop]
  rfl

/-- Settles O54: stage by stage the commands return what ProcessPayload computes. -/
theorem pipelineCommandsComputeProcessPayload : Obligations.PipelineCommandsComputeProcessPayload := by
  intro P pl pb s hempty
  refine ⟨fun hlen => ?_, fun hlong => processPayload_of_gt hlong pl pb s⟩
  obtain ⟨-, hregs, -⟩ := issue_dropq pl s
  cases hdrop : (shouldDropMessage lfsr16 pl s.regs.lfsr).1 with
  | true =>
    refine ⟨_, processPayload_of_dropped hlen pb hdrop, ?_, by rw [hregs]⟩
    simp [processMessage, hdrop, hregs]
  | false =>
    have hempty' : (issue (encode (.dropq pl)) s).2.regs.PackerEmpty := by rw [hregs]; exact hempty
    obtain ⟨hout, -, hframe⟩ := completedRun_eq hlen pb hempty' rfl
    refine ⟨_, processPayload_of_not_dropped hlen pb hdrop, ?_, ?_⟩
    · rw [hout, hframe, copyUnit_unpacker_lfsr, hregs]
      simp [processMessage, hdrop]
    · rw [hframe, copyUnit_statusIll, hregs]

/-- Settles O56: the drop decision is the host's first command, and the stages after it are those of `completedRun`. -/
theorem droppedMessageTransformsNothing : Obligations.DroppedMessageTransformsNothing := by
  intro P pl pb s run hrun
  obtain ⟨-, hregs, hresponses⟩ := issue_dropq pl s
  have hlen := length_le_of_processPayload hrun
  refine ⟨fun hlt => ?_, fun hge => ?_⟩
  · rw [processPayload_of_dropped hlen pb (decide_eq_true hlt)] at hrun
    cases hrun
    exact ⟨rfl, rfl, hregs, hresponses⟩
  · rw [processPayload_of_not_dropped hlen pb (decide_eq_false hge)] at hrun
    cases hrun
    exact ⟨⟨_, _, rfl⟩, rfl⟩

/-- Settles O57: the packer ends as it began, empty, and the blocks of the payload have all its bytes. -/
theorem completedMessageLeavesTheUnitsClean : Obligations.CompletedMessageLeavesTheUnitsClean := by
  intro P pl pb s run hempty hrun hout
  obtain ⟨-, hregs, -⟩ := issue_dropq pl s
  have hlen := length_le_of_processPayload hrun
  cases hdrop : (shouldDropMessage lfsr16 pl s.regs.lfsr).1 with
  | true =>
    rw [processPayload_of_dropped hlen pb hdrop] at hrun
    cases hrun
    exact absurd rfl hout
  | false =>
    rw [processPayload_of_not_dropped hlen pb hdrop] at hrun
    cases hrun
    have hempty' : (issue (encode (.dropq pl)) s).2.regs.PackerEmpty := by rw [hregs]; exact hempty
    obtain ⟨-, ⟨hcnt, -, hrem⟩, hframe⟩ := completedRun_eq hlen pb hempty' rfl
    rw [List.length_map, injectAll_length, List.length_map, pack_length, blockCount] at hcnt hrem
    have hlength : (BitVec.ofNat 16 P.length).toNat = P.length := by rw [BitVec.toNat_ofNat, Nat.mod_eq_of_lt (by omega)]
    refine ⟨?_, ?_, hcnt, ?_⟩
    · rw [hframe, copyUnit_unpacker_packerEmpty_iff]
      exact hempty'
    · apply BitVec.eq_of_toNat_eq
      rw [hrem, hlength]
      show P.length - _ = 0
      omega
    · rw [hframe, copyUnit_statusIll, hregs]

end Sys2Proof.Machine
end

section
/-! The assembler's table and its two pseudo-commands (R79, R80). -/

namespace Sys2Proof.Machine

@[simp] theorem fitOperand_toNat {w : Nat} (v : BitVec w) : fitOperand w v.toNat = some v := by
  rw [fitOperand, if_pos v.isLt, BitVec.ofNat_toNat, BitVec.setWidth_eq]

theorem fitOperand_of_le {w n : Nat} (h : 2 ^ w ≤ n) : fitOperand w n = none := if_neg (Nat.not_lt.mpr h)

/-- Where every element has a value, all have. -/
theorem allSome_map {α β : Type} {f : α → Option β} {g : α → β} (h : ∀ a, f a = some (g a)) (l : List α) :
    allSome (l.map f) = some (l.map g) := by
  induction l with
  | nil => rfl
  | cons a l ih => rw [List.map_cons, h, allSome, ih]; rfl

/-- A command written as its mnemonic and operands assembles to its word (R79). -/
theorem assembleCommand_instr {i : Instr} (hwf : i.wellFormed = true) :
    assembleCommand (mnemonicOf i) ((operandsOf i).map AsmOperand.number) = some [encode i] := by
  cases i with
  | seed v =>
    have hv : v ≠ 0 := by simpa [Instr.wellFormed] using hwf
    have hnat : v.toNat ≠ 0 := fun h => hv (BitVec.eq_of_toNat_eq h)
    simp only [mnemonicOf, operandsOf, List.map_cons, List.map_nil, assembleCommand, if_neg hnat, fitOperand_toNat,
      Option.map_some]
  | pkflush => rfl
  | enc _ | dec _ | pkpush _ | upstart _ | uppush _ | inj _ _ | dropq _ =>
    simp only [mnemonicOf, operandsOf, List.map_cons, List.map_nil, assembleCommand, fitOperand_toNat, Option.map_some,
      Option.bind_some]

/-- PKMSG of numbers (R80). -/
theorem assembleCommand_pkmsg_numbers (P : List Byte) :
    assembleCommand .pkmsg (P.map fun b => .number b.toNat) = some (packWords P) := by
  have hbytes : allSome ((P.map fun b => AsmOperand.number b.toNat).map operandBytes) = some (P.map fun b => [b]) := by
    rw [List.map_map]
    exact allSome_map (fun b => by simp [operandBytes]) P
  have hflat : (P.map fun b => [b]).flatten = P := by rw [← List.flatMap_def, List.flatMap_singleton']
  simp only [assembleCommand, hbytes, Option.map_some, hflat, packWords]

/-- PKMSG of a string, which stands for its bytes (R80). -/
theorem assembleCommand_pkmsg_text (P : List Byte) : assembleCommand .pkmsg [.text P] = some (packWords P) := by
  simp [assembleCommand, allSome, operandBytes, packWords]

/-- UPMSG (R80; with no block log entry 12). -/
theorem assembleCommand_upmsg (len : Len) (K : List Block) :
    assembleCommand .upmsg (.number len.toNat :: K.map fun d => .number d.toNat) = some (unpackWords len K) := by
  have hblocks : allSome ((K.map fun d => AsmOperand.number d.toNat).map operandBlock) = some K := by
    rw [List.map_map]
    have h := allSome_map (f := operandBlock ∘ fun d : Block => .number d.toNat) (g := id)
      (fun d => fitOperand_toNat d) K
    rwa [List.map_id] at h
  simp only [assembleCommand, hblocks, fitOperand_toNat, Option.map_some, Option.bind_some, unpackWords]

/-- An operand beyond its range is an assembly error, one clause for each width (R79). -/
theorem assembleCommand_out_of_range (n : Nat) :
    (2 ^ 11 ≤ n → assembleCommand .enc [.number n] = none ∧ assembleCommand .uppush [.number n] = none) ∧
    (2 ^ 15 ≤ n → assembleCommand .dec [.number n] = none ∧ ∀ p, assembleCommand .inj [.number n, .number p] = none) ∧
    (2 ^ 8 ≤ n → assembleCommand .pkpush [.number n] = none) ∧
    (2 ^ 10 ≤ n → assembleCommand .dropq [.number n] = none ∧
      ∀ c, assembleCommand .inj [.number c, .number n] = none) ∧
    (2 ^ 16 ≤ n → assembleCommand .upstart [.number n] = none ∧ assembleCommand .seed [.number n] = none) := by
  refine ⟨fun h => ?_, fun h => ?_, fun h => ?_, fun h => ?_, fun h => ?_⟩
  · simp only [assembleCommand, fitOperand_of_le h, Option.map_none, and_self]
  · simp only [assembleCommand, fitOperand_of_le h, Option.map_none, Option.bind_none, implies_true, and_self]
  · simp only [assembleCommand, fitOperand_of_le h, Option.map_none]
  · simp only [assembleCommand, fitOperand_of_le h, Option.map_none, Option.bind_fun_none, implies_true, and_self]
  · simp only [assembleCommand, fitOperand_of_le h, Option.map_none, ite_self, and_self]

/-- Settles O60, one clause for the table, the ranges, SEED 0, PKMSG and UPMSG. -/
theorem assemblerGivesTheWordsOfTheTable : Obligations.AssemblerGivesTheWordsOfTheTable :=
  ⟨fun _ => assembleCommand_instr, assembleCommand_out_of_range, rfl,
    fun P => ⟨assembleCommand_pkmsg_numbers P, assembleCommand_pkmsg_text P⟩, assembleCommand_upmsg⟩

end Sys2Proof.Machine
end
